-- ==== Sys2Proof/Word.lean ====
section
/-! DEFINITION. The word types of the machine (spec/10_state.md R20, spec/30_encoding.md R71). Every value is
unsigned; nothing is ever sign-extended (spec/00_scope.md R10). -/

namespace Sys2Proof

/-- A byte: a general register, a timer, a byte of memory (R20). -/
abbrev Byte := BitVec 8

/-- A 16-bit word: an opcode, `pc`, `I`, an entry of the return stack (R20, R70). -/
abbrev Word := BitVec 16

/-- A 4-bit slice of an opcode: a register number or a count (spec/00_scope.md R17 "nibble"). -/
abbrev Nibble := BitVec 4

/-- The 12-bit address field `nnn` of an opcode (R71). -/
abbrev Addr := BitVec 12

end Sys2Proof
end

