-- ==== Sys2Proof/Machine/Font.lean ====
section
/-! DEFINITION. The glyph font parameter `FONT` (spec/20_memory.md R55, R56): 16 glyphs of 5 bytes, and its default.
PRESUMED (log entry 1): the spec's default table is "the conventional CHIP-8 hexadecimal font [from general knowledge,
not in source]". -/

namespace Sys2Proof.Machine

/-- `FONT : Fin 16 -> Fin 5 -> UInt8` (R56) as plain data: glyph `d` is entry `d`, its rows top index first (R55). -/
abbrev Font := Vector (Vector Byte 5) 16

/-- The default of `FONT` (R56). UNSAFE for claims about glyph pixels: such a claim must name the font (log entry 1). -/
def defaultFont : Font :=
  #v[ #v[0xF0, 0x90, 0x90, 0x90, 0xF0], #v[0x20, 0x60, 0x20, 0x20, 0x70],
      #v[0xF0, 0x10, 0xF0, 0x80, 0xF0], #v[0xF0, 0x10, 0xF0, 0x10, 0xF0],
      #v[0x90, 0x90, 0xF0, 0x10, 0x10], #v[0xF0, 0x80, 0xF0, 0x10, 0xF0],
      #v[0xF0, 0x80, 0xF0, 0x90, 0xF0], #v[0xF0, 0x10, 0x20, 0x40, 0x40],
      #v[0xF0, 0x90, 0xF0, 0x90, 0xF0], #v[0xF0, 0x90, 0xF0, 0x10, 0xF0],
      #v[0xF0, 0x90, 0xF0, 0x90, 0x90], #v[0xE0, 0x90, 0xE0, 0x90, 0xE0],
      #v[0xF0, 0x80, 0x80, 0x80, 0xF0], #v[0xE0, 0x90, 0x90, 0x90, 0xE0],
      #v[0xF0, 0x80, 0xF0, 0x80, 0xF0], #v[0xF0, 0x80, 0xF0, 0x80, 0x80] ]

end Sys2Proof.Machine
end

