-- ==== Sys2Proof/Machine/State.lean ====
section
/-! DEFINITION. The Machine State of spec/10_state.md (R20 to R40), as plain data, and the state after reset (R40).
Two fields are the model's own and no state of the spec: `font`, the parameter FONT of spec/20_memory.md R56 (log
entry 1), and `draws`, the place in the random source of spec/41_alu.md R143 (log entry 2). -/

namespace Sys2Proof.Machine

/-- The key-wait state `halt` (R33, R35). -/
inductive Halt where
  /-- No key-wait is in progress. -/
  | notHalted
  /-- `WaitKey(r)`: the next key press goes to register `r`. -/
  | waitKey (r : Nibble)
  deriving DecidableEq, Repr

/-- The fault codes of spec/60_exceptions.md R221. -/
inductive FaultCode where
  /-- 1: `execute` met an unrecognized opcode. -/
  | illegalOpcode
  /-- 2: CALL with `sp = 15`. -/
  | stackOverflow
  /-- 3: RET with `sp = 0`. -/
  | stackUnderflow
  /-- 4: a fetch at `pc > 0xFFE`. -/
  | fetchOutOfBounds
  /-- 5: a fetch at an odd `pc`. -/
  | fetchMisaligned
  /-- 6: DXYN, FX33, FX55 or FX65 would touch an address above 0xFFF. -/
  | dataOutOfBounds
  /-- 7: FX29 with `V[x] > 0xF`. -/
  | glyphOutOfRange
  deriving DecidableEq, Repr

/-- The fault record `{code, pc, opcode, info}` (R34, spec/60_exceptions.md R222). -/
structure FaultRecord where
  code : FaultCode
  /-- The address of the faulting instruction. -/
  pc : Word
  /-- The 16-bit opcode; none for a fetch fault. -/
  opcode : Option Word
  /-- What R221 says the code records, or none. -/
  info : Option Word
  deriving DecidableEq, Repr

/-- The Machine State (R20): "one aggregate with exactly these fields and no others", and the model's own `font` and
`draws`. -/
structure State where
  /-- V0..VF (R21); VF is `V[15]` (R22). -/
  V : Vector Byte 16
  /-- The index register (R24). -/
  I : Word
  /-- The program counter (R25). -/
  pc : Word
  /-- The return-address stack (R26). -/
  stack : Vector Word 16
  /-- The stack pointer, 0..15 (R27). -/
  sp : Fin 16
  /-- The delay timer (R28). -/
  DT : Byte
  /-- The sound timer (R29). -/
  ST : Byte
  /-- The memory (R30): the cells that differ from their reset byte, addresses strictly rising (Machine/Memory.lean). -/
  mem : List Host.Cell
  /-- The display, `[row][col]` (R31). -/
  disp : Vector (Vector Bool 64) 32
  /-- The held keys, bit k set when key k is held (R32). -/
  keys : BitVec 16
  /-- The key-wait state (R33). -/
  halt : Halt
  /-- The recorded fault (R34). -/
  fault : Option FaultRecord
  /-- THE MODEL'S OWN (log entry 2): how many bytes the random source has handed over (R143). -/
  draws : Nat
  /-- THE MODEL'S OWN (log entry 1): the parameter FONT (R56), which no operation changes. -/
  font : Font
  deriving DecidableEq, Repr

/-- Host-level faults: there are none. Every error of the spec is recorded in the state (spec/60_exceptions.md R222),
so it is a next state (log entry 3). An empty type says that no step ends in one. -/
inductive Fault where
  deriving DecidableEq, Repr

/-- Host-level refusals. -/
inductive Refusal where
  /-- An instruction without a meaning, rejected by name in `exec`. Raised by no arm: all 35 have their meaning. Safe:
  the machine would stop where the hardware goes on. -/
  | notModelled (mnemonic : String)
  deriving DecidableEq, Repr

/-- What an instruction's meaning answers. -/
abbrev Result := Host.Outcome State Fault Refusal

/-- A display with every pixel clear (R40). -/
def blankDisplay : Vector (Vector Bool 64) 32 := Vector.replicate 32 (Vector.replicate 64 false)

/-- The state after reset (R40, spec/70_reset_and_hazards.md R260) of a machine whose FONT parameter is `font`. -/
def State.resetWith (font : Font) : State where
  V := Vector.replicate 16 0x00
  I := 0x0000
  pc := 0x200
  stack := Vector.replicate 16 0x0000
  sp := 0
  DT := 0x00
  ST := 0x00
  mem := []
  disp := blankDisplay
  keys := 0
  halt := .notHalted
  fault := none
  draws := 0
  font := font

/-- The machine right after reset (R40), with the spec's default FONT (R56; log entry 1). -/
def State.reset : State := State.resetWith defaultFont

end Sys2Proof.Machine
end

