-- ==== Sys2Proof/Machine/Flags.lean ====
section
/-! DEFINITION. The values written to VF as a flag (spec/10_state.md R22, spec/41_alu.md R131, spec/43_display.md R185).
There is no other flag. All comparisons are unsigned. -/

namespace Sys2Proof.Machine

/-- A flag is exactly 0 or 1 (R131). -/
def flagOf (b : Bool) : Byte := if b then 1 else 0

/-- The carry of 8XY4: 1 iff the true sum exceeds 255 (R131, R138). -/
def carryFlag (a b : Byte) : Byte := flagOf (decide (a.toNat + b.toNat > 255))

/-- The subtraction flag of 8XY5 and 8XY7: 1 iff the minuend is strictly greater (R131: not `a>=b`). -/
def greaterFlag (minuend subtrahend : Byte) : Byte := flagOf (decide (minuend.toNat > subtrahend.toNat))

/-- The bit shifted out by 8XY6: `V[x] AND 1` (R140). -/
def lowBitFlag (a : Byte) : Byte := a &&& 1

/-- The bit shifted out by 8XYE: `(V[x] >> 7) AND 1` (R142). -/
def highBitFlag (a : Byte) : Byte := (a >>> 7) &&& 1

end Sys2Proof.Machine
end

