-- ==== Sys2Proof/Config.lean ====
section
/-! DEFINITION. What the spec leaves to a parameter that has no value of its own: the random source `RNG`
(spec/41_alu.md R143, spec/92_eei_decisions.md D25). The other parameter, `FONT`, has a default in the spec and is
plain data of the state (Machine/Font.lean, Machine/State.lean; log entry 1). -/

namespace Sys2Proof

/-- FREE VALUE (log entry 2): the byte that the random source hands over at its `k`-th draw (R143: "a draw, 0..255";
spec/60_exceptions.md R237). It has no body: a statement about it holds for every source. -/
opaque Config.randomByte : Nat → Byte

end Sys2Proof
end

