-- ==== Sys2Proof/Syntax.lean ====
section
/-! DEFINITION. The instructions: one constructor for each of the 35 rows of spec/opcode_table.json, in its order
(spec/30_encoding.md R82). Operand names are the spec's (R71, R72): `x`, `y` register numbers, `kk` an 8-bit immediate,
`nnn` a 12-bit address, `n` the low nibble. A field the instruction decodes but does not read is kept as well (`n` of
5XYn and 9XYn, `y` of 8XY6 and 8XYE, `h = op[7:4]` of the E and F families): a fault records the opcode as it stood
(spec/60_exceptions.md R222), so no bit of it may be dropped (log entry 5). -/

namespace Sys2Proof

/-- The 35 instructions (R82). -/
inductive Instr where
  /-- 0NNN `SYS nnn` (R104). -/
  | sys (nnn : Addr)
  /-- 00E0 `CLS` (R181). -/
  | cls
  /-- 00EE `RET` (R105). -/
  | ret
  /-- 1NNN `JP nnn` (R106). -/
  | jp (nnn : Addr)
  /-- 2NNN `CALL nnn` (R107). -/
  | call (nnn : Addr)
  /-- 3XKK `SE Vx, kk` (R108). -/
  | seImm (x : Nibble) (kk : Byte)
  /-- 4XKK `SNE Vx, kk` (R109). -/
  | sneImm (x : Nibble) (kk : Byte)
  /-- 5XY0 `SE Vx, Vy` (R110); the low nibble `n` is not examined (R76). -/
  | seReg (x y n : Nibble)
  /-- 6XKK `LD Vx, kk` (R132). -/
  | ldImm (x : Nibble) (kk : Byte)
  /-- 7XKK `ADD Vx, kk` (R133). -/
  | addImm (x : Nibble) (kk : Byte)
  /-- 8XY0 `LD Vx, Vy` (R134). -/
  | ldReg (x y : Nibble)
  /-- 8XY1 `OR Vx, Vy` (R135). -/
  | orReg (x y : Nibble)
  /-- 8XY2 `AND Vx, Vy` (R136). -/
  | andReg (x y : Nibble)
  /-- 8XY3 `XOR Vx, Vy` (R137). -/
  | xorReg (x y : Nibble)
  /-- 8XY4 `ADD Vx, Vy` (R138). -/
  | addReg (x y : Nibble)
  /-- 8XY5 `SUB Vx, Vy` (R139). -/
  | subReg (x y : Nibble)
  /-- 8XY6 `SHR Vx` (R140); `y` is decoded but not read (R72). -/
  | shr (x y : Nibble)
  /-- 8XY7 `SUBN Vx, Vy` (R141). -/
  | subnReg (x y : Nibble)
  /-- 8XYE `SHL Vx` (R142); `y` is decoded but not read (R72). -/
  | shl (x y : Nibble)
  /-- 9XY0 `SNE Vx, Vy` (R111); the low nibble `n` is not examined (R76). -/
  | sneReg (x y n : Nibble)
  /-- ANNN `LD I, nnn` (R160). -/
  | ldI (nnn : Addr)
  /-- BNNN `JP V0, nnn` (R112). -/
  | jpV0 (nnn : Addr)
  /-- CXKK `RND Vx, kk` (R143). -/
  | rnd (x : Nibble) (kk : Byte)
  /-- DXYN `DRW Vx, Vy, n` (R182). -/
  | drw (x y n : Nibble)
  /-- EX9E `SKP Vx` (R200); bits [7:4] are not examined (R78). -/
  | skp (x h : Nibble)
  /-- EXA1 `SKNP Vx` (R201); bits [7:4] are not examined (R78). -/
  | sknp (x h : Nibble)
  /-- FX07 `LD Vx, DT` (R202); bits [7:4] are not examined (R79). -/
  | ldVxDT (x h : Nibble)
  /-- FX0A `LD Vx, K` (R203); bits [7:4] are not examined (R79). -/
  | ldKey (x h : Nibble)
  /-- FX15 `LD DT, Vx` (R204). -/
  | ldDT (x : Nibble)
  /-- FX18 `LD ST, Vx` (R205); bits [7:4] are not examined (R79). -/
  | ldST (x h : Nibble)
  /-- FX1E `ADD I, Vx` (R161); bits [7:4] are not examined (R79). -/
  | addI (x h : Nibble)
  /-- FX29 `LD F, Vx` (R162); bits [7:4] are not examined (R79). -/
  | ldF (x h : Nibble)
  /-- FX33 `LD B, Vx` (R163); bits [7:4] are not examined (R79). -/
  | ldB (x h : Nibble)
  /-- FX55 `LD [I], Vx` (R164). -/
  | storeRegs (x : Nibble)
  /-- FX65 `LD Vx, [I]` (R165). -/
  | loadRegs (x : Nibble)
  deriving DecidableEq, Repr

end Sys2Proof
end

