-- ==== Sys2Proof/WellFormed.lean ====
section
/-! DEFINITION. Which terms of `Instr` stand for an opcode of their own, and which of those are canonical. Operand
widths are in the types, so the one check left is `SYS`: the words 0x00E0 and 0x00EE are CLS and RET, never SYS
(spec/30_encoding.md R75). -/

namespace Sys2Proof

/-- `SYS nnn` exists for every `nnn` but 0x0E0 and 0x0EE (R75); every other term is well formed. -/
def Instr.wf : Instr → Bool
  | .sys nnn => nnn != 0x0E0#12 && nnn != 0x0EE#12
  | .cls => true
  | .ret => true
  | .jp _ => true
  | .call _ => true
  | .seImm _ _ => true
  | .sneImm _ _ => true
  | .seReg _ _ _ => true
  | .ldImm _ _ => true
  | .addImm _ _ => true
  | .ldReg _ _ => true
  | .orReg _ _ => true
  | .andReg _ _ => true
  | .xorReg _ _ => true
  | .addReg _ _ => true
  | .subReg _ _ => true
  | .shr _ _ => true
  | .subnReg _ _ => true
  | .shl _ _ => true
  | .sneReg _ _ _ => true
  | .ldI _ => true
  | .jpV0 _ => true
  | .rnd _ _ => true
  | .drw _ _ _ => true
  | .skp _ _ => true
  | .sknp _ _ => true
  | .ldVxDT _ _ => true
  | .ldKey _ _ => true
  | .ldDT _ => true
  | .ldST _ _ => true
  | .addI _ _ => true
  | .ldF _ _ => true
  | .ldB _ _ => true
  | .storeRegs _ => true
  | .loadRegs _ => true

/-- The canonical form of an instruction: the bits its rule does not examine set as the pattern of R82 writes them
(R83). An alias encoding (R84) is an instruction that differs from its canonical form. The `y` of SHR and SHL is a free
field of the pattern 0x8XY6 / 0x8XYE, so it stays. -/
def Instr.canonical : Instr → Instr
  | .sys nnn => .sys nnn
  | .cls => .cls
  | .ret => .ret
  | .jp nnn => .jp nnn
  | .call nnn => .call nnn
  | .seImm x kk => .seImm x kk
  | .sneImm x kk => .sneImm x kk
  | .seReg x y _ => .seReg x y 0x0#4
  | .ldImm x kk => .ldImm x kk
  | .addImm x kk => .addImm x kk
  | .ldReg x y => .ldReg x y
  | .orReg x y => .orReg x y
  | .andReg x y => .andReg x y
  | .xorReg x y => .xorReg x y
  | .addReg x y => .addReg x y
  | .subReg x y => .subReg x y
  | .shr x y => .shr x y
  | .subnReg x y => .subnReg x y
  | .shl x y => .shl x y
  | .sneReg x y _ => .sneReg x y 0x0#4
  | .ldI nnn => .ldI nnn
  | .jpV0 nnn => .jpV0 nnn
  | .rnd x kk => .rnd x kk
  | .drw x y n => .drw x y n
  | .skp x _ => .skp x 0x9#4
  | .sknp x _ => .sknp x 0xA#4
  | .ldVxDT x _ => .ldVxDT x 0x0#4
  | .ldKey x _ => .ldKey x 0x0#4
  | .ldDT x => .ldDT x
  | .ldST x _ => .ldST x 0x1#4
  | .addI x _ => .addI x 0x1#4
  | .ldF x _ => .ldF x 0x2#4
  | .ldB x _ => .ldB x 0x3#4
  | .storeRegs x => .storeRegs x
  | .loadRegs x => .loadRegs x

end Sys2Proof
end

