-- ==== Sys2Proof/Decode.lean ====
section
/-! DEFINITION. The decoder of spec/30_encoding.md R73 to R80 and the encoder of its patterns (R82). Both are total and
pure. Instruction bytes are big-endian: the byte at the lower address is `op[15:8]` (R70, spec/20_memory.md R58). -/

namespace Sys2Proof

/-- Why bytes are no instruction. -/
inductive DecodeError where
  /-- Fewer than the two bytes an instruction has (R81). Raised by `decodeBytes` only. -/
  | truncated
  /-- `op` is one of the 7888 unrecognized opcodes (R85). -/
  | unrecognized (op : Word)
  deriving DecidableEq, Repr

/-! ### Field extraction (R71) -/

/-- `family = op[15:12]` (R74). -/
def opFamily (op : Word) : Nibble := op.extractLsb' 12 4
/-- `x = op[11:8]`. -/
def opX (op : Word) : Nibble := op.extractLsb' 8 4
/-- `y = op[7:4]`; called `h` where the family does not read it as a register. -/
def opY (op : Word) : Nibble := op.extractLsb' 4 4
/-- `n = op[3:0]`. -/
def opN (op : Word) : Nibble := op.extractLsb' 0 4
/-- `kk = op[7:0]`. -/
def opKK (op : Word) : Byte := op.extractLsb' 0 8
/-- `nnn = op[11:0]`. -/
def opNNN (op : Word) : Addr := op.extractLsb' 0 12

/-! ### The decoder (R80) -/

/-- Family 0x0 (R75): 0x00E0 and 0x00EE exactly, every other word `SYS`. -/
def decodeFamily0 (op : Word) : Except DecodeError Instr :=
  if op = 0x00E0#16 then .ok .cls
  else if op = 0x00EE#16 then .ok .ret
  else .ok (.sys (opNNN op))

/-- Family 0x8 (R77): selected by the low nibble. -/
def decodeFamily8 (op : Word) : Except DecodeError Instr :=
  let x := opX op
  let y := opY op
  if opN op = 0x0#4 then .ok (.ldReg x y)
  else if opN op = 0x1#4 then .ok (.orReg x y)
  else if opN op = 0x2#4 then .ok (.andReg x y)
  else if opN op = 0x3#4 then .ok (.xorReg x y)
  else if opN op = 0x4#4 then .ok (.addReg x y)
  else if opN op = 0x5#4 then .ok (.subReg x y)
  else if opN op = 0x6#4 then .ok (.shr x y)
  else if opN op = 0x7#4 then .ok (.subnReg x y)
  else if opN op = 0xE#4 then .ok (.shl x y)
  else .error (.unrecognized op)

/-- Family 0xE (R78): selected by the low nibble; bits [7:4] are not examined. -/
def decodeFamilyE (op : Word) : Except DecodeError Instr :=
  let x := opX op
  let h := opY op
  if opN op = 0xE#4 then .ok (.skp x h)
  else if opN op = 0x1#4 then .ok (.sknp x h)
  else .error (.unrecognized op)

/-- Family 0xF (R79): the low-byte tests first, then the low nibble. -/
def decodeFamilyF (op : Word) : Except DecodeError Instr :=
  let x := opX op
  let h := opY op
  if opKK op = 0x15#8 then .ok (.ldDT x)
  else if opKK op = 0x55#8 then .ok (.storeRegs x)
  else if opKK op = 0x65#8 then .ok (.loadRegs x)
  else if opN op = 0x3#4 then .ok (.ldB x h)
  else if opN op = 0x7#4 then .ok (.ldVxDT x h)
  else if opN op = 0x8#4 then .ok (.ldST x h)
  else if opN op = 0x9#4 then .ok (.ldF x h)
  else if opN op = 0xA#4 then .ok (.ldKey x h)
  else if opN op = 0xE#4 then .ok (.addI x h)
  else .error (.unrecognized op)

/-- `Decode(op)` (R73, R80): the family by the top nibble (R74), families 1 to 7 and 9 to D by it alone (R76). -/
def decode (op : Word) : Except DecodeError Instr :=
  if opFamily op = 0x0#4 then decodeFamily0 op
  else if opFamily op = 0x1#4 then .ok (.jp (opNNN op))
  else if opFamily op = 0x2#4 then .ok (.call (opNNN op))
  else if opFamily op = 0x3#4 then .ok (.seImm (opX op) (opKK op))
  else if opFamily op = 0x4#4 then .ok (.sneImm (opX op) (opKK op))
  else if opFamily op = 0x5#4 then .ok (.seReg (opX op) (opY op) (opN op))
  else if opFamily op = 0x6#4 then .ok (.ldImm (opX op) (opKK op))
  else if opFamily op = 0x7#4 then .ok (.addImm (opX op) (opKK op))
  else if opFamily op = 0x8#4 then decodeFamily8 op
  else if opFamily op = 0x9#4 then .ok (.sneReg (opX op) (opY op) (opN op))
  else if opFamily op = 0xA#4 then .ok (.ldI (opNNN op))
  else if opFamily op = 0xB#4 then .ok (.jpV0 (opNNN op))
  else if opFamily op = 0xC#4 then .ok (.rnd (opX op) (opKK op))
  else if opFamily op = 0xD#4 then .ok (.drw (opX op) (opY op) (opN op))
  else if opFamily op = 0xE#4 then decodeFamilyE op
  else decodeFamilyF op

/-- The opcode of two consecutive bytes, high byte first (R70, spec/20_memory.md R57). -/
def opcodeOfBytes (hi lo : Byte) : Word := hi ++ lo

/-- Decode the instruction at the head of a byte sequence; the rest of the bytes is handed back. -/
def decodeBytes : List Byte → Except DecodeError (Instr × List Byte)
  | hi :: lo :: rest =>
    match decode (opcodeOfBytes hi lo) with
    | .ok i => .ok (i, rest)
    | .error e => .error e
  | [_] => .error .truncated
  | [] => .error .truncated

/-! ### The encoder: the patterns of R82 -/

/-- An opcode from its four nibbles (R70, "nibble" view). -/
def wordXYN (family x y n : Nibble) : Word := family ++ x ++ y ++ n
/-- An opcode from family, `x` and `kk` (R70, "byte view"). -/
def wordXKK (family x : Nibble) (kk : Byte) : Word := family ++ x ++ kk
/-- An opcode from family and `nnn` (R70, "address view"). -/
def wordNNN (family : Nibble) (nnn : Addr) : Word := family ++ nnn

/-- The opcode of an instruction, written from the patterns of R82. -/
def encode : Instr → Word
  | .sys nnn => wordNNN 0x0#4 nnn
  | .cls => 0x00E0#16
  | .ret => 0x00EE#16
  | .jp nnn => wordNNN 0x1#4 nnn
  | .call nnn => wordNNN 0x2#4 nnn
  | .seImm x kk => wordXKK 0x3#4 x kk
  | .sneImm x kk => wordXKK 0x4#4 x kk
  | .seReg x y n => wordXYN 0x5#4 x y n
  | .ldImm x kk => wordXKK 0x6#4 x kk
  | .addImm x kk => wordXKK 0x7#4 x kk
  | .ldReg x y => wordXYN 0x8#4 x y 0x0#4
  | .orReg x y => wordXYN 0x8#4 x y 0x1#4
  | .andReg x y => wordXYN 0x8#4 x y 0x2#4
  | .xorReg x y => wordXYN 0x8#4 x y 0x3#4
  | .addReg x y => wordXYN 0x8#4 x y 0x4#4
  | .subReg x y => wordXYN 0x8#4 x y 0x5#4
  | .shr x y => wordXYN 0x8#4 x y 0x6#4
  | .subnReg x y => wordXYN 0x8#4 x y 0x7#4
  | .shl x y => wordXYN 0x8#4 x y 0xE#4
  | .sneReg x y n => wordXYN 0x9#4 x y n
  | .ldI nnn => wordNNN 0xA#4 nnn
  | .jpV0 nnn => wordNNN 0xB#4 nnn
  | .rnd x kk => wordXKK 0xC#4 x kk
  | .drw x y n => wordXYN 0xD#4 x y n
  | .skp x h => wordXYN 0xE#4 x h 0xE#4
  | .sknp x h => wordXYN 0xE#4 x h 0x1#4
  | .ldVxDT x h => wordXYN 0xF#4 x h 0x7#4
  | .ldKey x h => wordXYN 0xF#4 x h 0xA#4
  | .ldDT x => wordXKK 0xF#4 x 0x15#8
  | .ldST x h => wordXYN 0xF#4 x h 0x8#4
  | .addI x h => wordXYN 0xF#4 x h 0xE#4
  | .ldF x h => wordXYN 0xF#4 x h 0x9#4
  | .ldB x h => wordXYN 0xF#4 x h 0x3#4
  | .storeRegs x => wordXKK 0xF#4 x 0x55#8
  | .loadRegs x => wordXKK 0xF#4 x 0x65#8

/-- The two bytes of an opcode as memory holds them, high byte first (R70). -/
def bytesOfOpcode (op : Word) : List Byte := [op.extractLsb' 8 8, op.extractLsb' 0 8]

/-- The bytes of an instruction as memory holds them. -/
def encodeBytes (i : Instr) : List Byte := bytesOfOpcode (encode i)

/-- The opcode of a table word: its low `nbits` bits, every bit above them 0. -/
def opcodeOfTableWord (nbits w : Nat) : Word := BitVec.ofNat 16 (w % 2 ^ nbits)

/-- The instruction the decoder reads from the table word `w` of `nbits` bits, laid out as memory holds it. -/
def decodeTableWord (nbits w : Nat) : Option Instr :=
  match decodeBytes (bytesOfOpcode (opcodeOfTableWord nbits w)) with
  | .ok (i, _) => some i
  | .error _ => none

/-! ### The opcode map as a table (R82) -/

/-- One row of the opcode map of R82: an opcode matches when `op AND mask = value` and it is none of `excludes`. -/
structure MapRow where
  mnemonic : String
  value : Word
  mask : Word
  excludes : List Word
  deriving DecidableEq, Repr

/-- "An opcode matches a row when `op AND mask = match`" (R82), less the row's excluded words. -/
def MapRow.matchesOp (r : MapRow) (op : Word) : Bool := op &&& r.mask == r.value && !r.excludes.contains op

/-- The 35 rows of R82, in its order, under the names spec/opcode_table.json gives them. -/
def opcodeMap : List MapRow :=
  [ ⟨"SYS_nnn", 0x0000, 0xF000, [0x00E0, 0x00EE]⟩, ⟨"CLS", 0x00E0, 0xFFFF, []⟩, ⟨"RET", 0x00EE, 0xFFFF, []⟩,
    ⟨"JP_nnn", 0x1000, 0xF000, []⟩, ⟨"CALL_nnn", 0x2000, 0xF000, []⟩, ⟨"SE_Vx__kk", 0x3000, 0xF000, []⟩,
    ⟨"SNE_Vx__kk", 0x4000, 0xF000, []⟩, ⟨"SE_Vx__Vy", 0x5000, 0xF000, []⟩, ⟨"LD_Vx__kk", 0x6000, 0xF000, []⟩,
    ⟨"ADD_Vx__kk", 0x7000, 0xF000, []⟩ ] ++
  [ ⟨"LD_Vx__Vy", 0x8000, 0xF00F, []⟩, ⟨"OR_Vx__Vy", 0x8001, 0xF00F, []⟩, ⟨"AND_Vx__Vy", 0x8002, 0xF00F, []⟩,
    ⟨"XOR_Vx__Vy", 0x8003, 0xF00F, []⟩, ⟨"ADD_Vx__Vy", 0x8004, 0xF00F, []⟩, ⟨"SUB_Vx__Vy", 0x8005, 0xF00F, []⟩,
    ⟨"SHR_Vx", 0x8006, 0xF00F, []⟩, ⟨"SUBN_Vx__Vy", 0x8007, 0xF00F, []⟩, ⟨"SHL_Vx", 0x800E, 0xF00F, []⟩,
    ⟨"SNE_Vx__Vy", 0x9000, 0xF000, []⟩, ⟨"LD_I__nnn", 0xA000, 0xF000, []⟩, ⟨"JP_V0__nnn", 0xB000, 0xF000, []⟩ ] ++
  [ ⟨"RND_Vx__kk", 0xC000, 0xF000, []⟩, ⟨"DRW_Vx__Vy__n", 0xD000, 0xF000, []⟩, ⟨"SKP_Vx", 0xE00E, 0xF00F, []⟩,
    ⟨"SKNP_Vx", 0xE001, 0xF00F, []⟩, ⟨"LD_Vx__DT", 0xF007, 0xF00F, []⟩, ⟨"LD_Vx__K", 0xF00A, 0xF00F, []⟩,
    ⟨"LD_DT__Vx", 0xF015, 0xF0FF, []⟩, ⟨"LD_ST__Vx", 0xF008, 0xF00F, []⟩, ⟨"ADD_I__Vx", 0xF00E, 0xF00F, []⟩,
    ⟨"LD_F__Vx", 0xF009, 0xF00F, []⟩, ⟨"LD_B__Vx", 0xF003, 0xF00F, []⟩, ⟨"LD__I___Vx", 0xF055, 0xF0FF, []⟩,
    ⟨"LD_Vx___I", 0xF065, 0xF0FF, []⟩ ]

/-- The name of an instruction's row of the opcode map (R82). -/
def Instr.mnemonic : Instr → String
  | .sys _ => "SYS_nnn"
  | .cls => "CLS"
  | .ret => "RET"
  | .jp _ => "JP_nnn"
  | .call _ => "CALL_nnn"
  | .seImm _ _ => "SE_Vx__kk"
  | .sneImm _ _ => "SNE_Vx__kk"
  | .seReg _ _ _ => "SE_Vx__Vy"
  | .ldImm _ _ => "LD_Vx__kk"
  | .addImm _ _ => "ADD_Vx__kk"
  | .ldReg _ _ => "LD_Vx__Vy"
  | .orReg _ _ => "OR_Vx__Vy"
  | .andReg _ _ => "AND_Vx__Vy"
  | .xorReg _ _ => "XOR_Vx__Vy"
  | .addReg _ _ => "ADD_Vx__Vy"
  | .subReg _ _ => "SUB_Vx__Vy"
  | .shr _ _ => "SHR_Vx"
  | .subnReg _ _ => "SUBN_Vx__Vy"
  | .shl _ _ => "SHL_Vx"
  | .sneReg _ _ _ => "SNE_Vx__Vy"
  | .ldI _ => "LD_I__nnn"
  | .jpV0 _ => "JP_V0__nnn"
  | .rnd _ _ => "RND_Vx__kk"
  | .drw _ _ _ => "DRW_Vx__Vy__n"
  | .skp _ _ => "SKP_Vx"
  | .sknp _ _ => "SKNP_Vx"
  | .ldVxDT _ _ => "LD_Vx__DT"
  | .ldKey _ _ => "LD_Vx__K"
  | .ldDT _ => "LD_DT__Vx"
  | .ldST _ _ => "LD_ST__Vx"
  | .addI _ _ => "ADD_I__Vx"
  | .ldF _ _ => "LD_F__Vx"
  | .ldB _ _ => "LD_B__Vx"
  | .storeRegs _ => "LD__I___Vx"
  | .loadRegs _ => "LD_Vx___I"

end Sys2Proof
end

