-- ==== Sys2Proof/Machine/Memory.lean ====
section
/-! DEFINITION. The 4096-byte memory (spec/20_memory.md R50 to R54) over its canonical form: a list of the cells that
differ from their reset byte, addresses strictly rising. Callers check addresses before they read or write (R51, R52,
R62); what these functions do above 0xFFF is the model's own (log entry 6) and is reached by no instruction. -/

namespace Sys2Proof.Machine

/-- What an unlisted address reads as: its reset byte, the font below 0x050 (R53, R55: glyph d, row r at `5*d + r`) and
0x00 above (R40). -/
def Memory.baseByte (font : Font) (a : Nat) : Byte :=
  if h : a < 80 then (font[a / 5]'(by omega))[a % 5]'(by omega) else 0x00

/-- The byte listed at an address, if one is. -/
def Memory.lookup (a : Nat) : List Host.Cell → Option Byte
  | [] => none
  | (b, v) :: rest => if b = a then some v else Memory.lookup a rest

/-- `MemRead(a, 1)` (R51). -/
def Memory.read (font : Font) (m : List Host.Cell) (a : Nat) : Byte :=
  match Memory.lookup a m with
  | some v => v
  | none => Memory.baseByte font a

/-- List `v` at address `a`, in address order, in place of what was listed there. -/
def Memory.insert (a : Nat) (v : Byte) : List Host.Cell → List Host.Cell
  | [] => [(a, v)]
  | (b, w) :: rest =>
    if a < b then (a, v) :: (b, w) :: rest
    else if a = b then (a, v) :: rest
    else (b, w) :: Memory.insert a v rest

/-- List nothing at address `a`. -/
def Memory.erase (a : Nat) : List Host.Cell → List Host.Cell
  | [] => []
  | (b, w) :: rest => if b = a then Memory.erase a rest else (b, w) :: Memory.erase a rest

/-- `MemWrite(a, 1, v)` (R52): sets the one byte. Writing an address's reset byte unlists it. -/
def Memory.write (font : Font) (m : List Host.Cell) (a : Nat) (v : Byte) : List Host.Cell :=
  if a ≤ 0xFFF then
    if v = Memory.baseByte font a then Memory.erase a m else Memory.insert a v m
  else m

/-- Writes a block of bytes at `a`, `a + 1`, ... in increasing address order (R65). -/
def Memory.writeBlock (font : Font) (m : List Host.Cell) (a : Nat) : List Byte → List Host.Cell
  | [] => m
  | v :: vs => Memory.writeBlock font (Memory.write font m a v) (a + 1) vs

/-- The canonical form: addresses strictly rising, every address in 0x000..0xFFF (R50), and no cell equal to what its
address reads as unlisted. -/
abbrev Memory.wf (font : Font) (m : List Host.Cell) : Prop :=
  m.Pairwise (fun p q => p.1 < q.1) ∧ ∀ c ∈ m, c.1 ≤ 0xFFF ∧ c.2 ≠ Memory.baseByte font c.1

end Sys2Proof.Machine
end

