-- ==== Sys2Proof/Machine/Ops.lean ====
section
/-! DEFINITION. The named operations over registers, memory and control state that the meanings share, and taking a
fault (spec/60_exceptions.md R222). There is no return from a fault: only `reset` clears one (R225). -/

namespace Sys2Proof.Machine

/-- The register number of VF (spec/10_state.md R22). -/
def vf : Nibble := 0xF#4

/-- Read general register `V[x]` (R21). -/
def State.reg (s : State) (x : Nibble) : Byte := s.V[x.toNat]'x.isLt

/-- `V[x] <- v`. -/
def State.setReg (s : State) (x : Nibble) (v : Byte) : State := { s with V := s.V.set x.toNat v x.isLt }

/-- `I <- v`. -/
def State.setI (s : State) (v : Word) : State := { s with I := v }

/-- `pc <- target`, with no check of the target (spec/40_control_flow.md R113). -/
def State.jumpTo (s : State) (target : Word) : State := { s with pc := target }

/-- The auto-advance `pc <- pc + 2` (R102). DESIGN CHOICE (log entry 4): from a pc that no run reaches the sum wraps at
the register's 16 bits. -/
def State.advance (s : State) : State := { s with pc := s.pc + 2 }

/-- A skip: 2 added to pc when the condition holds; the auto-advance adds 2 more (R103). -/
def State.skipIf (s : State) (c : Bool) : State := if c then { s with pc := s.pc + 2 } else s

/-- The push and jump of CALL once its check has passed: `sp <- sp + 1`; `stack[sp] <- pc`; `pc <- target` (R107). -/
def State.pushAndJump (s : State) (target : Word) : State :=
  let top : Fin 16 := s.sp + 1
  { s with sp := top, stack := s.stack.set top.val s.pc top.isLt, pc := target }

/-- The pop of RET once its check has passed: `pc <- stack[sp]`; `sp <- sp - 1`; the entry is not cleared (R105). -/
def State.popReturn (s : State) : State := { s with pc := s.stack[s.sp], sp := s.sp - 1 }

/-- Read one byte of memory (spec/20_memory.md R51). -/
def State.readByte (s : State) (a : Nat) : Byte := Memory.read s.font s.mem a

/-- Write a block of bytes from address `a` up (R52, R65). -/
def State.writeBytes (s : State) (a : Nat) (bytes : List Byte) : State :=
  { s with mem := Memory.writeBlock s.font s.mem a bytes }

/-- The next byte of the random source, and the state after the draw (spec/41_alu.md R143; log entry 2). -/
def State.drawByte (s : State) : Byte × State := (Config.randomByte s.draws, { s with draws := s.draws + 1 })

/-- FAULT ENTRY (spec/60_exceptions.md R222): `fault <- {code, pc, opcode, info}` with the pc of the faulting
instruction; nothing else changes. -/
def State.raise (s : State) (code : FaultCode) (opcode info : Option Word) : State :=
  { s with fault := some ⟨code, s.pc, opcode, info⟩ }

/-- An instruction's own check failed: the fault records the instruction's opcode (R222). -/
def faultOn (i : Instr) (code : FaultCode) (info : Option Word) (s : State) : Result :=
  .next (s.raise code (some (encode i)) info)

end Sys2Proof.Machine
end

