-- ==== Sys2Proof/Machine/Operands.lean ====
section
/-! DEFINITION. The operand forms of spec/30_encoding.md R72 and the operands computed from them: zero-extended
immediates, I-relative addresses (spec/20_memory.md R62, R69), register blocks, decimal digits, key numbers. -/

namespace Sys2Proof.Machine

/-- The 12-bit address `nnn`, zero-extended to 16 bits (R72). -/
def addrOperand (nnn : Addr) : Word := nnn.setWidth 16

/-- A byte, zero-extended to 16 bits (spec/00_scope.md R10). -/
def zext16 (v : Byte) : Word := v.setWidth 16

/-- The I-relative address `I + k`, an unbounded integer: no wrap at 12 or 16 bits (spec/20_memory.md R62, R69). -/
def State.dataAddr (s : State) (k : Nat) : Nat := s.I.toNat + k

/-- Some address of `I .. I + count - 1` exceeds 0xFFF; a block of no bytes never does (R62). -/
def State.blockOutOfBounds (s : State) (count : Nat) : Bool :=
  decide (count > 0) && decide (s.I.toNat + count - 1 > 0xFFF)

/-- The lowest address of an out-of-bounds block that exceeds 0xFFF: `max(I, 0x1000)` (R62). -/
def State.firstBadAddr (s : State) : Word := if s.I.toNat ≤ 0x1000 then 0x1000#16 else s.I

/-- The bytes at `I`, `I + 1`, ..., `count` of them (R61, R65). -/
def State.readBlock (s : State) (count : Nat) : List Byte := (List.range count).map fun k => s.readByte (s.dataAddr k)

/-- The registers V0..Vx, in order (spec/42_index_memory.md R164). -/
def State.regBlock (s : State) (x : Nibble) : List Byte := s.V.toList.take (x.toNat + 1)

/-- `for k in 0..x: V[k] <- bytes at I + k` (R165): registers above Vx keep their value. -/
def State.loadRegBlock (s : State) (x : Nibble) : State :=
  { s with V := Vector.ofFn fun k : Fin 16 => if k.val ≤ x.toNat then s.readByte (s.dataAddr k.val) else s.V[k] }

/-- The three decimal digits of a byte, hundreds first (R163). -/
def decimalDigits (v : Byte) : List Byte :=
  [BitVec.ofNat 8 (v.toNat / 100), BitVec.ofNat 8 (v.toNat / 10 % 10), BitVec.ofNat 8 (v.toNat % 10)]

/-- The address of the glyph of hex digit `d`: `5 * d` (R162, spec/20_memory.md R55). -/
def glyphAddr (d : Byte) : Word := 5 * zext16 d

/-- Key `v` is currently held. `keys` has 16 bits, so a number above 0xF is never held (spec/44_timers_keys.md R200). -/
def State.keyHeld (s : State) (v : Byte) : Bool := s.keys.getLsbD v.toNat

end Sys2Proof.Machine
end

