-- ==== Sys2Proof/Machine/Alu.lean ====
section
/-! DEFINITION. Register arithmetic and logic (spec/41_alu.md R130 to R144). Unsigned, modulo 256. Statements run in the
order of the rule, each reading the state the one before left (spec/00_scope.md R15), which decides what happens when
x or y is VF (R144). No instruction of this family faults. -/

namespace Sys2Proof.Machine

/-- 6XKK `LD Vx, kk` (R132). -/
def execLdImm (x : Nibble) (kk : Byte) (s : State) : Result := .next (s.setReg x kk).advance

/-- 7XKK `ADD Vx, kk` (R133): wraps silently, VF is no carry. -/
def execAddImm (x : Nibble) (kk : Byte) (s : State) : Result := .next (s.setReg x (s.reg x + kk)).advance

/-- 8XY0 `LD Vx, Vy` (R134). -/
def execLdReg (x y : Nibble) (s : State) : Result := .next (s.setReg x (s.reg y)).advance

/-- 8XY1 `OR Vx, Vy` (R135): VF is not reset. -/
def execOrReg (x y : Nibble) (s : State) : Result := .next (s.setReg x (s.reg x ||| s.reg y)).advance

/-- 8XY2 `AND Vx, Vy` (R136): VF is not reset. -/
def execAndReg (x y : Nibble) (s : State) : Result := .next (s.setReg x (s.reg x &&& s.reg y)).advance

/-- 8XY3 `XOR Vx, Vy` (R137): VF is not reset. -/
def execXorReg (x y : Nibble) (s : State) : Result := .next (s.setReg x (s.reg x ^^^ s.reg y)).advance

/-- 8XY4 `ADD Vx, Vy` (R138): the sum is taken before VF is written, so with x = F the carry is lost. -/
def execAddReg (x y : Nibble) (s : State) : Result :=
  let sum := s.reg x + s.reg y
  let flagged := s.setReg vf (carryFlag (s.reg x) (s.reg y))
  .next (flagged.setReg x sum).advance

/-- 8XY5 `SUB Vx, Vy` (R139): the flag first, then the difference of the registers as they then stand. -/
def execSubReg (x y : Nibble) (s : State) : Result :=
  let flagged := s.setReg vf (greaterFlag (s.reg x) (s.reg y))
  .next (flagged.setReg x (flagged.reg x - flagged.reg y)).advance

/-- 8XY6 `SHR Vx` (R140): the bit shifted out goes to VF before the register is shifted; `y` is not read. -/
def execShr (x _y : Nibble) (s : State) : Result :=
  let flagged := s.setReg vf (lowBitFlag (s.reg x))
  .next (flagged.setReg x (flagged.reg x >>> 1)).advance

/-- 8XY7 `SUBN Vx, Vy` (R141): the flag first, then the difference of the registers as they then stand. -/
def execSubnReg (x y : Nibble) (s : State) : Result :=
  let flagged := s.setReg vf (greaterFlag (s.reg y) (s.reg x))
  .next (flagged.setReg x (flagged.reg y - flagged.reg x)).advance

/-- 8XYE `SHL Vx` (R142): bit 7 goes to VF before the register is shifted; `y` is not read. -/
def execShl (x _y : Nibble) (s : State) : Result :=
  let flagged := s.setReg vf (highBitFlag (s.reg x))
  .next (flagged.setReg x (flagged.reg x <<< 1)).advance

/-- CXKK `RND Vx, kk` (R143): a fresh draw AND `kk`. -/
def execRnd (x : Nibble) (kk : Byte) (s : State) : Result :=
  .next (s.drawByte.2.setReg x (s.drawByte.1 &&& kk)).advance

end Sys2Proof.Machine
end

