-- ==== Sys2Proof/Machine/Control.lean ====
section
/-! DEFINITION. The control-transfer family (spec/40_control_flow.md R102 to R113). SYS, JP, CALL and JP V0 set pc and are
not advanced; everything else is (R102). No transfer checks its target (R113). -/

namespace Sys2Proof.Machine

/-- 0NNN `SYS nnn` (R104): `pc <- nnn`, no advance. -/
def execSys (nnn : Addr) (s : State) : Result := .next (s.jumpTo (addrOperand nnn))

/-- 00EE `RET` (R105): STACK_UNDERFLOW when `sp = 0`; else pop and advance. -/
def execRet (s : State) : Result :=
  if s.sp = 0 then faultOn .ret .stackUnderflow none s
  else .next s.popReturn.advance

/-- 1NNN `JP nnn` (R106): `pc <- nnn`, no advance. -/
def execJp (nnn : Addr) (s : State) : Result := .next (s.jumpTo (addrOperand nnn))

/-- 2NNN `CALL nnn` (R107): STACK_OVERFLOW when `sp = 15`; else push this instruction's own address and jump. -/
def execCall (nnn : Addr) (s : State) : Result :=
  if s.sp = 15 then faultOn (.call nnn) .stackOverflow none s
  else .next (s.pushAndJump (addrOperand nnn))

/-- 3XKK `SE Vx, kk` (R108). -/
def execSeImm (x : Nibble) (kk : Byte) (s : State) : Result := .next (s.skipIf (s.reg x == kk)).advance

/-- 4XKK `SNE Vx, kk` (R109). -/
def execSneImm (x : Nibble) (kk : Byte) (s : State) : Result := .next (s.skipIf (s.reg x != kk)).advance

/-- 5XY0 `SE Vx, Vy` (R110); the low nibble is ignored. -/
def execSeReg (x y _n : Nibble) (s : State) : Result := .next (s.skipIf (s.reg x == s.reg y)).advance

/-- 9XY0 `SNE Vx, Vy` (R111); the low nibble is ignored. -/
def execSneReg (x y _n : Nibble) (s : State) : Result := .next (s.skipIf (s.reg x != s.reg y)).advance

/-- BNNN `JP V0, nnn` (R112): `pc <- nnn + V[0]`, a 16-bit result with no wrap at 12 bits, no advance. -/
def execJpV0 (nnn : Addr) (s : State) : Result := .next (s.jumpTo (addrOperand nnn + zext16 (s.reg 0x0#4)))

end Sys2Proof.Machine
end

