-- ==== Sys2Proof/Machine/Display.lean ====
section
/-! DEFINITION. CLS, DRW and the XOR sprite blit (spec/43_display.md R180 to R187). -/

namespace Sys2Proof.Machine

/-- The pixel at row `r mod 32`, column `c mod 64`: toroidal addressing, never clipped (R184). -/
def pixelAt (d : Vector (Vector Bool 64) 32) (r c : Nat) : Bool := (d[r % 32]'(by omega))[c % 64]'(by omega)

/-- `disp[r][c] <- not disp[r][c]` at row `r mod 32`, column `c mod 64` (R182, R184). -/
def togglePixel (d : Vector (Vector Bool 64) 32) (r c : Nat) : Vector (Vector Bool 64) 32 :=
  d.set (r % 32) ((d[r % 32]'(by omega)).set (c % 64) (!pixelAt d r c) (by omega)) (by omega)

/-- The display under the blit and whether a set pixel has been cleared so far (`collided`, R182). -/
structure Canvas where
  disp : Vector (Vector Bool 64) 32
  collided : Bool
  deriving DecidableEq, Repr

/-- One sprite bit at row `r`, column `c`: a 1 bit inverts the pixel, and is a collision if the pixel was set; a 0 bit
leaves it (R182). -/
def blitBit (r c : Nat) (bit : Bool) (cv : Canvas) : Canvas :=
  if bit then ⟨togglePixel cv.disp r c, cv.collided || pixelAt cv.disp r c⟩ else cv

/-- One sprite row: bit 7 is column offset 0, bit 0 is column offset 7 (R183). -/
def blitRow (r x0 : Nat) (b : Byte) (cv : Canvas) : Canvas :=
  (List.range 8).foldl (fun acc k => blitBit r (x0 + k) (b.getLsbD (7 - k)) acc) cv

/-- The sprite rows from row `r` down, one byte each (R182: `j = row_offset`). -/
def blitRows (x0 : Nat) : Nat → List Byte → Canvas → Canvas
  | _, [], cv => cv
  | r, b :: bs, cv => blitRows x0 (r + 1) bs (blitRow r x0 b cv)

/-- 00E0 `CLS` (R181). -/
def execCls (s : State) : Result := .next { s with disp := blankDisplay }.advance

/-- DXYN `DRW Vx, Vy, n` (R182): bounds first; the coordinates are read before VF is written; VF is written once, after
every pixel (R185). -/
def execDrw (x y n : Nibble) (s : State) : Result :=
  if s.blockOutOfBounds n.toNat then faultOn (.drw x y n) .dataOutOfBounds (some s.firstBadAddr) s
  else
    let done := blitRows (s.reg x).toNat (s.reg y).toNat (s.readBlock n.toNat) ⟨s.disp, false⟩
    .next ({ s with disp := done.disp }.setReg vf (flagOf done.collided)).advance

end Sys2Proof.Machine
end

