-- ==== Sys2Proof/Machine/IndexMem.lean ====
section
/-! DEFINITION. The index register and memory transfer (spec/42_index_memory.md R160 to R165). All checks come before any
write (spec/00_scope.md R14); no access changes I. -/

namespace Sys2Proof.Machine

/-- ANNN `LD I, nnn` (R160). -/
def execLdI (nnn : Addr) (s : State) : Result := .next (s.setI (addrOperand nnn)).advance

/-- FX1E `ADD I, Vx` (R161): a 16-bit sum, no 12-bit wrap; VF is not written. -/
def execAddI (x _h : Nibble) (s : State) : Result := .next (s.setI (s.I + zext16 (s.reg x))).advance

/-- FX29 `LD F, Vx` (R162): GLYPH_OUT_OF_RANGE when `V[x]` is no hex digit; else `I <- 5 * V[x]`. -/
def execLdF (x h : Nibble) (s : State) : Result :=
  if (s.reg x).toNat > 0xF then faultOn (.ldF x h) .glyphOutOfRange (some (zext16 (s.reg x))) s
  else .next (s.setI (glyphAddr (s.reg x))).advance

/-- FX33 `LD B, Vx` (R163): hundreds, tens, ones to `mem[I]`, `mem[I+1]`, `mem[I+2]`. -/
def execLdB (x h : Nibble) (s : State) : Result :=
  if s.blockOutOfBounds 3 then faultOn (.ldB x h) .dataOutOfBounds (some s.firstBadAddr) s
  else .next (s.writeBytes (s.dataAddr 0) (decimalDigits (s.reg x))).advance

/-- FX55 `LD [I], Vx` (R164): V0..Vx to `mem[I..I+x]`. -/
def execStoreRegs (x : Nibble) (s : State) : Result :=
  if s.blockOutOfBounds (x.toNat + 1) then faultOn (.storeRegs x) .dataOutOfBounds (some s.firstBadAddr) s
  else .next (s.writeBytes (s.dataAddr 0) (s.regBlock x)).advance

/-- FX65 `LD Vx, [I]` (R165): `mem[I..I+x]` to V0..Vx. -/
def execLoadRegs (x : Nibble) (s : State) : Result :=
  if s.blockOutOfBounds (x.toNat + 1) then faultOn (.loadRegs x) .dataOutOfBounds (some s.firstBadAddr) s
  else .next (s.loadRegBlock x).advance

end Sys2Proof.Machine
end

