-- ==== Sys2Proof/Machine/KeysTimers.lean ====
section
/-! DEFINITION. Keys and timers (spec/44_timers_keys.md R200 to R205). No instruction of this family faults. -/

namespace Sys2Proof.Machine

/-- EX9E `SKP Vx` (R200). -/
def execSkp (x _h : Nibble) (s : State) : Result := .next (s.skipIf (s.keyHeld (s.reg x))).advance

/-- EXA1 `SKNP Vx` (R201). -/
def execSknp (x _h : Nibble) (s : State) : Result := .next (s.skipIf (!s.keyHeld (s.reg x))).advance

/-- FX07 `LD Vx, DT` (R202). -/
def execLdVxDT (x _h : Nibble) (s : State) : Result := .next (s.setReg x s.DT).advance

/-- FX0A `LD Vx, K` (R203): enter the key-wait for register x; pc is advanced now. -/
def execLdKey (x _h : Nibble) (s : State) : Result := .next { s with halt := .waitKey x }.advance

/-- FX15 `LD DT, Vx` (R204). -/
def execLdDT (x : Nibble) (s : State) : Result := .next { s with DT := s.reg x }.advance

/-- FX18 `LD ST, Vx` (R205). -/
def execLdST (x _h : Nibble) (s : State) : Result := .next { s with ST := s.reg x }.advance

end Sys2Proof.Machine
end

