-- ==== Sys2Proof/Machine/Cycle.lean ====
section
/-! DEFINITION. The instruction cycle (spec/40_control_flow.md R100, R101; spec/20_memory.md R57) in the priority of
spec/60_exceptions.md R226: a recorded fault, a key-wait, fetch bounds, fetch alignment, decode, the instruction's own
check. -/

namespace Sys2Proof.Machine

/-- `Fetch()` (R57): bounds before alignment, then two bytes, high byte first. -/
def fetch (s : State) : Except FaultCode Word :=
  if s.pc.toNat > 0xFFE then .error .fetchOutOfBounds
  else if s.pc.toNat % 2 = 1 then .error .fetchMisaligned
  else .ok (opcodeOfBytes (s.readByte s.pc.toNat) (s.readByte (s.pc.toNat + 1)))

/-- `execute(op)` (R101): nothing while a fault is recorded or a key-wait is in progress; an unrecognized opcode faults;
otherwise the instruction's rule, at the current pc. -/
def executeOp (op : Word) (s : State) : Result :=
  if s.fault.isSome then .next s
  else if s.halt ≠ .notHalted then .next s
  else
    match decode op with
    | .error _ => .next (s.raise .illegalOpcode (some op) none)
    | .ok i => exec i s

/-- `step()` (R100): the same gates, then fetch at pc, then `execute`. A fetch fault records no opcode (R222). -/
def stepCycle (s : State) : Result :=
  if s.fault.isSome then .next s
  else if s.halt ≠ .notHalted then .next s
  else
    match fetch s with
    | .error c => .next (s.raise c none none)
    | .ok op => executeOp op s

/-- The state with `op` stored where `step` fetches next and nothing in the way of that fetch: a recorded fault or a
key-wait is taken away, and a pc that cannot be fetched from becomes the entry point 0x200 (log entry 8). In a state
that runs, the two bytes at pc are all that changes. -/
def placeOpcode (op : Word) (s : State) : State :=
  let p : Word := if s.pc.toNat > 0xFFE ∨ s.pc.toNat % 2 = 1 then 0x200 else s.pc
  { s.writeBytes p.toNat (bytesOfOpcode op) with pc := p, halt := .notHalted, fault := none }

end Sys2Proof.Machine
end

