-- ==== Sys2Proof/Machine/Step.lean ====
section
/-! DEFINITION. One step of the machine, and a state with a given instruction placed where it is fetched next. -/

namespace Sys2Proof.Machine

/-- `step()` (spec/40_control_flow.md R100). -/
def step (s : State) : Host.Outcome State Fault Refusal := stepCycle s

/-- `s` with the table word `w` of `nbits` bits stored where `step` fetches its next instruction (log entry 8). -/
def State.withFetchWord (s : State) (nbits w : Nat) : State := placeOpcode (opcodeOfTableWord nbits w) s

end Sys2Proof.Machine
end

