-- ==== Sys2Proof/Machine/HostOps.lean ====
section
/-! DEFINITION. The host's operations on the core and their statuses (spec/60_exceptions.md R227, R230 to R236,
spec/70_reset_and_hazards.md R260 to R263), and a run as a finite sequence of operations in any order (R235, R241). -/

namespace Sys2Proof.Machine

/-- The status an interface operation returns (R227). -/
inductive Status where
  | ok
  /-- A key-wait is in progress; nothing was done. -/
  | halted
  /-- A fault is recorded. -/
  | faulted (code : FaultCode)
  /-- `deliverKeyEvent` with a key code above 0xF; nothing was done. -/
  | rejectedBadKey
  /-- `loadProgram` of an image that does not fit; nothing was done. -/
  | rejectedTooLarge
  deriving DecidableEq, Repr

/-- The numbers of the fault codes (R221: "the spec's own labels"). -/
def faultNumber : FaultCode → Nat
  | .illegalOpcode => 1
  | .stackOverflow => 2
  | .stackUnderflow => 3
  | .fetchOutOfBounds => 4
  | .fetchMisaligned => 5
  | .dataOutOfBounds => 6
  | .glyphOutOfRange => 7

/-- The state a result leaves. Every result of this machine is a next state; the other arms are never taken. -/
def stateAfter (s : State) : Result → State
  | .next t => t
  | .fault _ => s
  | .refused _ => s

/-- The status of `step` and `execute` from the states before and after (R100, R101, R227): FAULTED while a fault is
recorded, HALTED when a key-wait was already in progress, FAULTED when this operation faulted, else OK. -/
def runStatus (before after : State) : Status :=
  match before.fault, before.halt, after.fault with
  | some f, _, _ => .faulted f.code
  | none, .waitKey _, _ => .halted
  | none, .notHalted, some f => .faulted f.code
  | none, .notHalted, none => .ok

/-- `step()` with its status (R100). -/
def hostStep (s : State) : State × Status :=
  let t := stateAfter s (step s)
  (t, runStatus s t)

/-- `execute(op)` with its status (R101). -/
def hostExecute (op : Word) (s : State) : State × Status :=
  let t := stateAfter s (executeOp op s)
  (t, runStatus s t)

/-- `reset()` (R260): every field at the value of spec/10_state.md R40. The parameter FONT stays, and the random source,
which is outside the core, is not rewound (log entries 1 and 2). -/
def hostReset (s : State) : State × Status := ({ State.resetWith s.font with draws := s.draws }, .ok)

/-- `loadProgram(bytes)` (R262): the image at 0x200 and up; one longer than 0xE00 bytes is rejected whole. -/
def loadProgram (bytes : List Byte) (s : State) : State × Status :=
  if bytes.length > 0xE00 then (s, .rejectedTooLarge) else (s.writeBytes 0x200 bytes, .ok)

/-- A timer counts down by 1, floored at 0 (R230). -/
def tickTimer (t : Byte) : Byte := if t.toNat > 0 then t - 1 else t

/-- `tickTimers()` (R230): acts in every state. -/
def tickTimers (s : State) : State × Status := ({ s with DT := tickTimer s.DT, ST := tickTimer s.ST }, .ok)

/-- `keys ∪ {k}` (R233). -/
def pressKey (keys : BitVec 16) (k : Nat) : BitVec 16 := keys ||| (1#16 <<< k)

/-- `keys \ {k}` (R233). -/
def releaseKey (keys : BitVec 16) (k : Nat) : BitVec 16 := keys &&& ~~~(1#16 <<< k)

/-- The resolution of a key-wait by a press of key `k` (R234): `V[r] <- k`, `halt <- NotHalted`; pc is not changed. -/
def resolveWait (k : Nat) (s : State) : State :=
  match s.halt with
  | .waitKey r => { s.setReg r (BitVec.ofNat 8 k) with halt := .notHalted }
  | .notHalted => s

/-- `deliverKeyEvent(k, pressed)` (R233). -/
def deliverKeyEvent (k : Nat) (pressed : Bool) (s : State) : State × Status :=
  if k > 0xF then (s, .rejectedBadKey)
  else if pressed then (resolveWait k { s with keys := pressKey s.keys k }, .ok)
  else ({ s with keys := releaseKey s.keys k }, .ok)

/-- The display buffer as the host's renderer is handed it (R236): a read, with no effect on the core. -/
def displayHandOver (s : State) : Vector (Vector Bool 64) 32 := s.disp

/-- One operation of the host (R235). -/
inductive HostOp where
  | reset
  | loadProgram (bytes : List Byte)
  | step
  | execute (op : Word)
  | tickTimers
  | deliverKeyEvent (k : Nat) (pressed : Bool)
  deriving DecidableEq, Repr

/-- What one host operation does: the new state and its status (R227). -/
def applyOp (o : HostOp) (s : State) : State × Status :=
  match o with
  | .reset => hostReset s
  | .loadProgram bytes => loadProgram bytes s
  | .step => hostStep s
  | .execute op => hostExecute op s
  | .tickTimers => tickTimers s
  | .deliverKeyEvent k pressed => deliverKeyEvent k pressed s

/-- A run: a finite sequence of host operations, in any order (R235, R241), and the status of each. -/
def runOps : List HostOp → State → State × List Status
  | [], s => (s, [])
  | o :: os, s =>
    let (t, st) := applyOp o s
    let (u, sts) := runOps os t
    (u, st :: sts)

end Sys2Proof.Machine
end

