-- ==== Sys2Proof/Safety.lean ====
section
/-! DEFINITION. The terms in which claims speak of a good state: a running core, the invariants of spec/10_state.md, and
what it means that a part of the state is kept. -/

namespace Sys2Proof.Machine

/-- The core executes: no fault is recorded and no key-wait is in progress (spec/40_control_flow.md R100). -/
abbrev State.Running (s : State) : Prop := s.fault = none ∧ s.halt = .notHalted

/-- An instruction can be fetched at this pc (spec/20_memory.md R57). -/
abbrev Fetchable (pc : Word) : Prop := pc.toNat ≤ 0xFFE ∧ pc.toNat % 2 = 0

/-- What R221 and R222 say a record of each code holds: an opcode unless it is a fetch fault, and the listed info. -/
def FaultRecord.wellFormed (f : FaultRecord) : Bool :=
  match f.code with
  | .illegalOpcode => f.opcode.isSome && f.info.isNone
  | .stackOverflow => f.opcode.isSome && f.info.isNone
  | .stackUnderflow => f.opcode.isSome && f.info.isNone
  | .fetchOutOfBounds => f.opcode.isNone && f.info.isNone && decide (f.pc.toNat > 0xFFE)
  | .fetchMisaligned => f.opcode.isNone && f.info.isNone && decide (f.pc.toNat % 2 = 1)
  | .dataOutOfBounds => f.opcode.isSome && (match f.info with | some a => decide (a.toNat ≥ 0x1000) | none => false)
  | .glyphOutOfRange =>
    f.opcode.isSome && (match f.info with | some v => decide (v.toNat > 0xF ∧ v.toNat ≤ 0xFF) | none => false)

/-- The invariant of every host operation, `execute` of any opcode among them: memory in canonical form; a recorded fault
excludes a key-wait (R39), is well formed and names the current pc (R222: pc keeps its value); `stack[0]` is never
written by a push (R27). -/
structure CoreInv (s : State) : Prop where
  mem_wf : Memory.wf s.font s.mem
  fault_excludes_wait : s.fault ≠ none → s.halt = .notHalted
  fault_record : ∀ f, s.fault = some f → f.wellFormed = true ∧ f.pc = s.pc
  stack_zero : s.stack[0] = 0#16

/-- The invariant of a session whose instructions are all fetched (`step`, never `execute` of an opcode that is not the
one at pc): pc stays in 0x0000..0x10FE (R25), and every return address is the address of a fetched CALL, so even and at
most 0xFFE (R26, R57). -/
structure FetchInv (s : State) : Prop where
  core : CoreInv s
  pc_bound : s.pc.toNat ≤ 0x10FE
  return_addr : ∀ j : Fin 16, Fetchable s.stack[j]

/-- The parts of the state, for frames. -/
inductive Part where
  | V | I | pc | stack | sp | DT | ST | mem | disp | keys | halt | fault | draws | font
  deriving DecidableEq, Repr

/-- `t` has the same value as `s` in one part; for memory, every byte reads the same. -/
def Part.Kept (s t : State) : Part → Prop
  | .V => ∀ x, t.reg x = s.reg x
  | .I => t.I = s.I
  | .pc => t.pc = s.pc
  | .stack => t.stack = s.stack
  | .sp => t.sp = s.sp
  | .DT => t.DT = s.DT
  | .ST => t.ST = s.ST
  | .mem => ∀ a, t.readByte a = s.readByte a
  | .disp => t.disp = s.disp
  | .keys => t.keys = s.keys
  | .halt => t.halt = s.halt
  | .fault => t.fault = s.fault
  | .draws => t.draws = s.draws
  | .font => t.font = s.font

/-- Every part is kept but, perhaps, the listed ones (the frame rule, spec/10_state.md R23). -/
def KeepsAllBut (parts : List Part) (s t : State) : Prop := ∀ p, p ∉ parts → p.Kept s t

/-- Every general register is kept but, perhaps, the listed ones. -/
def KeepsRegsBut (xs : List Nibble) (s t : State) : Prop := ∀ x, x ∉ xs → t.reg x = s.reg x

/-- The parts an instruction's rule names as written; a part not listed is kept (R23). An instruction with a check of
its own may record a fault instead (spec/60_exceptions.md R221). -/
def footprint : Instr → List Part
  | .sys _ => [.pc]
  | .cls => [.disp, .pc]
  | .ret => [.pc, .sp, .fault]
  | .jp _ => [.pc]
  | .call _ => [.pc, .sp, .stack, .fault]
  | .seImm _ _ => [.pc]
  | .sneImm _ _ => [.pc]
  | .seReg _ _ _ => [.pc]
  | .ldImm _ _ => [.V, .pc]
  | .addImm _ _ => [.V, .pc]
  | .ldReg _ _ => [.V, .pc]
  | .orReg _ _ => [.V, .pc]
  | .andReg _ _ => [.V, .pc]
  | .xorReg _ _ => [.V, .pc]
  | .addReg _ _ => [.V, .pc]
  | .subReg _ _ => [.V, .pc]
  | .shr _ _ => [.V, .pc]
  | .subnReg _ _ => [.V, .pc]
  | .shl _ _ => [.V, .pc]
  | .sneReg _ _ _ => [.pc]
  | .ldI _ => [.I, .pc]
  | .jpV0 _ => [.pc]
  | .rnd _ _ => [.V, .pc, .draws]
  | .drw _ _ _ => [.disp, .V, .pc, .fault]
  | .skp _ _ => [.pc]
  | .sknp _ _ => [.pc]
  | .ldVxDT _ _ => [.V, .pc]
  | .ldKey _ _ => [.halt, .pc]
  | .ldDT _ => [.DT, .pc]
  | .ldST _ _ => [.ST, .pc]
  | .addI _ _ => [.I, .pc]
  | .ldF _ _ => [.I, .pc, .fault]
  | .ldB _ _ => [.mem, .pc, .fault]
  | .storeRegs _ => [.mem, .pc, .fault]
  | .loadRegs _ => [.V, .pc, .fault]

/-- Register `r` is a destination of the instruction: its x field where the rule writes V[x], VF where the rule writes
it as a flag (spec/10_state.md R22), V0..Vx for the block load (spec/42_index_memory.md R165). -/
def writesRegister (i : Instr) (r : Nibble) : Bool :=
  match i with
  | .sys _ => false
  | .cls => false
  | .ret => false
  | .jp _ => false
  | .call _ => false
  | .seImm _ _ => false
  | .sneImm _ _ => false
  | .seReg _ _ _ => false
  | .ldImm x _ => r == x
  | .addImm x _ => r == x
  | .ldReg x _ => r == x
  | .orReg x _ => r == x
  | .andReg x _ => r == x
  | .xorReg x _ => r == x
  | .addReg x _ => r == x || r == vf
  | .subReg x _ => r == x || r == vf
  | .shr x _ => r == x || r == vf
  | .subnReg x _ => r == x || r == vf
  | .shl x _ => r == x || r == vf
  | .sneReg _ _ _ => false
  | .ldI _ => false
  | .jpV0 _ => false
  | .rnd x _ => r == x
  | .drw _ _ _ => r == vf
  | .skp _ _ => false
  | .sknp _ _ => false
  | .ldVxDT x _ => r == x
  | .ldKey _ _ => false
  | .ldDT _ => false
  | .ldST _ _ => false
  | .addI _ _ => false
  | .ldF _ _ => false
  | .ldB _ _ => false
  | .storeRegs _ => false
  | .loadRegs x => decide (r.toNat ≤ x.toNat)

/-- Where the auto-advance counts from (spec/40_control_flow.md R102, R103, R105): `none` for the four instructions that
set pc and are not advanced; the popped address for RET; 2 on for a skip that is taken; else pc itself. -/
def advanceBase (i : Instr) (s : State) : Option Word :=
  match i with
  | .sys _ => none
  | .cls => some s.pc
  | .ret => some s.stack[s.sp]
  | .jp _ => none
  | .call _ => none
  | .seImm x kk => some (if s.reg x = kk then s.pc + 2 else s.pc)
  | .sneImm x kk => some (if s.reg x ≠ kk then s.pc + 2 else s.pc)
  | .seReg x y _ => some (if s.reg x = s.reg y then s.pc + 2 else s.pc)
  | .ldImm _ _ => some s.pc
  | .addImm _ _ => some s.pc
  | .ldReg _ _ => some s.pc
  | .orReg _ _ => some s.pc
  | .andReg _ _ => some s.pc
  | .xorReg _ _ => some s.pc
  | .addReg _ _ => some s.pc
  | .subReg _ _ => some s.pc
  | .shr _ _ => some s.pc
  | .subnReg _ _ => some s.pc
  | .shl _ _ => some s.pc
  | .sneReg x y _ => some (if s.reg x ≠ s.reg y then s.pc + 2 else s.pc)
  | .ldI _ => some s.pc
  | .jpV0 _ => none
  | .rnd _ _ => some s.pc
  | .drw _ _ _ => some s.pc
  | .skp x _ => some (if s.keyHeld (s.reg x) then s.pc + 2 else s.pc)
  | .sknp x _ => some (if s.keyHeld (s.reg x) then s.pc else s.pc + 2)
  | .ldVxDT _ _ => some s.pc
  | .ldKey _ _ => some s.pc
  | .ldDT _ => some s.pc
  | .ldST _ _ => some s.pc
  | .addI _ _ => some s.pc
  | .ldF _ _ => some s.pc
  | .ldB _ _ => some s.pc
  | .storeRegs _ => some s.pc
  | .loadRegs _ => some s.pc

/-- Instruction `i` completes from `s` and writes `V[x]` and no other register: the value is `v`, pc is advanced by 2,
and nothing else changes. -/
def WritesReg (i : Instr) (s : State) (x : Nibble) (v : Nat) : Prop :=
  ∃ t, exec i s = .next t ∧ (t.reg x).toNat = v ∧ KeepsRegsBut [x] s t ∧ t.pc = s.pc + 2 ∧ KeepsAllBut [.V, .pc] s t

/-- Instruction `i` completes from `s` and writes `V[x]` and, as a flag, VF, and no other register: the values are `v`
and `f`, pc is advanced by 2, and nothing else changes. -/
def WritesRegAndFlag (i : Instr) (s : State) (x : Nibble) (v f : Nat) : Prop :=
  ∃ t, exec i s = .next t ∧ (t.reg x).toNat = v ∧ (t.reg vf).toNat = f ∧ KeepsRegsBut [x, vf] s t ∧
    t.pc = s.pc + 2 ∧ KeepsAllBut [.V, .pc] s t

/-- Instruction `i` completes from `s` as a skip: pc ends 4 on when `c` holds and 2 on when it does not, and nothing
else changes (R103). -/
def SkipsWhen (i : Instr) (s : State) (c : Prop) : Prop :=
  ∃ t, exec i s = .next t ∧ (c → t.pc = s.pc + 4) ∧ (¬c → t.pc = s.pc + 2) ∧ KeepsAllBut [.pc] s t

/-- Instruction `i` traps from `s` (spec/60_exceptions.md R222): the fault is recorded with the code, the pc, the opcode
of the instruction and the info, and nothing else changes. -/
def TrapsWith (i : Instr) (s : State) (code : FaultCode) (info : Option Word) : Prop :=
  exec i s = .next { s with fault := some ⟨code, s.pc, some (encode i), info⟩ }

/-- A sprite of `n` rows at column `x0`, row `y0`, read from the bytes at I, has a 1 bit on display row `r`, column `c`,
rows taken mod 32 and columns mod 64 (spec/43_display.md R183, R184). -/
def SpriteCovers (s : State) (x0 y0 n r c : Nat) : Prop :=
  ∃ j k, j < n ∧ k < 8 ∧ (y0 + j) % 32 = r ∧ (x0 + k) % 64 = c ∧ (s.readByte (s.I.toNat + j)).getLsbD (7 - k) = true

end Sys2Proof.Machine
end

