-- ==== Sys2Proof/Certificates/Slice0/Obligations.lean ====
section
/-! DEFINITION. The statements for the provers, from the numbered rules of spec/. A statement about every state holds in
states no run reaches as well. Where a clause rests on a decision of spec/92_eei_decisions.md (the spec's own choice) or
on a log entry of this model, the docstring says so and the entry's basis is 'derived'. -/

open Sys2Proof Sys2Proof.Machine

/-! ### Encoding -/

/-- Decoding an encoded well-formed instruction gives it back, every operand at every value (R80, R82). -/
def Obligations.DecodeOfEncodeIsTheInstruction : Prop :=
  ∀ i : Instr, i.wf = true → decode (encode i) = .ok i

/-- Encoding what an opcode decodes to gives the opcode back, every bit of it, and the instruction is well formed: the
bits the rule does not examine are kept in the instruction (log entry 5). -/
def Obligations.EncodeOfDecodeIsTheOpcode : Prop :=
  ∀ (op : Word) (i : Instr), decode op = .ok i → encode i = op ∧ i.wf = true

/-- The decoder of R80 and the opcode map of R82 are two designs of one function: an opcode that decodes matches exactly
one row of the map, the row of its instruction; one that does not decode matches none ("Exactly one row matches each
recognised opcode", derived in the spec). -/
def Obligations.DecoderAgreesWithOpcodeMap : Prop :=
  ∀ op : Word,
    match decode op with
    | .ok i => (opcodeMap.filter (·.matchesOp op)).map (·.mnemonic) = [i.mnemonic]
    | .error e => e = .unrecognized op ∧ opcodeMap.filter (·.matchesOp op) = []

/-- R75, family 0x0, with the resolution C1 of spec/90_conflicts.md: 0x00E0 is CLS, 0x00EE is RET, every other word is
SYS. -/
def Obligations.FamilyZeroDecodes : Prop :=
  ∀ nnn : Addr, decode (0x0#4 ++ nnn : Word) =
    if nnn = 0x0E0#12 then .ok .cls else if nnn = 0x0EE#12 then .ok .ret else .ok (.sys nnn)

/-- R76: in families 1 to 7 and 9 to D every opcode decodes, with its fields, as the family's one instruction. -/
def Obligations.TopNibbleFamiliesDecode : Prop :=
  (∀ nnn : Addr, decode (0x1#4 ++ nnn : Word) = .ok (.jp nnn)) ∧
  (∀ nnn : Addr, decode (0x2#4 ++ nnn : Word) = .ok (.call nnn)) ∧
  (∀ (x : Nibble) (kk : Byte), decode (0x3#4 ++ x ++ kk : Word) = .ok (.seImm x kk)) ∧
  (∀ (x : Nibble) (kk : Byte), decode (0x4#4 ++ x ++ kk : Word) = .ok (.sneImm x kk)) ∧
  (∀ x y n : Nibble, decode (0x5#4 ++ x ++ y ++ n : Word) = .ok (.seReg x y n)) ∧
  (∀ (x : Nibble) (kk : Byte), decode (0x6#4 ++ x ++ kk : Word) = .ok (.ldImm x kk)) ∧
  (∀ (x : Nibble) (kk : Byte), decode (0x7#4 ++ x ++ kk : Word) = .ok (.addImm x kk)) ∧
  (∀ x y n : Nibble, decode (0x9#4 ++ x ++ y ++ n : Word) = .ok (.sneReg x y n)) ∧
  (∀ nnn : Addr, decode (0xA#4 ++ nnn : Word) = .ok (.ldI nnn)) ∧
  (∀ nnn : Addr, decode (0xB#4 ++ nnn : Word) = .ok (.jpV0 nnn)) ∧
  (∀ (x : Nibble) (kk : Byte), decode (0xC#4 ++ x ++ kk : Word) = .ok (.rnd x kk)) ∧
  (∀ x y n : Nibble, decode (0xD#4 ++ x ++ y ++ n : Word) = .ok (.drw x y n))

/-- R77: family 0x8 is selected by the low nibble; the nibbles 8, 9, A, B, C, D and F are unrecognized. -/
def Obligations.FamilyEightDecodes : Prop :=
  ∀ x y n : Nibble, decode (0x8#4 ++ x ++ y ++ n : Word) =
    if n = 0x0#4 then .ok (.ldReg x y) else if n = 0x1#4 then .ok (.orReg x y)
    else if n = 0x2#4 then .ok (.andReg x y) else if n = 0x3#4 then .ok (.xorReg x y)
    else if n = 0x4#4 then .ok (.addReg x y) else if n = 0x5#4 then .ok (.subReg x y)
    else if n = 0x6#4 then .ok (.shr x y) else if n = 0x7#4 then .ok (.subnReg x y)
    else if n = 0xE#4 then .ok (.shl x y) else .error (.unrecognized (0x8#4 ++ x ++ y ++ n : Word))

/-- R78: family 0xE is selected by the low nibble; bits [7:4] are not examined; every other low nibble is
unrecognized. -/
def Obligations.FamilyEDecodes : Prop :=
  ∀ x h n : Nibble, decode (0xE#4 ++ x ++ h ++ n : Word) =
    if n = 0xE#4 then .ok (.skp x h) else if n = 0x1#4 then .ok (.sknp x h)
    else .error (.unrecognized (0xE#4 ++ x ++ h ++ n : Word))

/-- R79, family 0xF, with the resolution C3 of spec/90_conflicts.md: low nibble 5 is selected on the whole low byte, the
others on the low nibble. -/
def Obligations.FamilyFDecodes : Prop :=
  ∀ x h n : Nibble, decode (0xF#4 ++ x ++ h ++ n : Word) =
    if n = 0x5#4 then
      (if h = 0x1#4 then .ok (.ldDT x) else if h = 0x5#4 then .ok (.storeRegs x)
       else if h = 0x6#4 then .ok (.loadRegs x) else .error (.unrecognized (0xF#4 ++ x ++ h ++ n : Word)))
    else if n = 0x3#4 then .ok (.ldB x h) else if n = 0x7#4 then .ok (.ldVxDT x h)
    else if n = 0x8#4 then .ok (.ldST x h) else if n = 0x9#4 then .ok (.ldF x h)
    else if n = 0xA#4 then .ok (.ldKey x h) else if n = 0xE#4 then .ok (.addI x h)
    else .error (.unrecognized (0xF#4 ++ x ++ h ++ n : Word))

/-- R85: the unrecognized opcodes are exactly these. -/
def Obligations.UnrecognizedOpcodesAreExactlyThese : Prop :=
  ∀ op : Word, (∃ e, decode op = .error e) ↔
    (opFamily op = 0x8#4 ∧ opN op ∈ [0x8#4, 0x9#4, 0xA#4, 0xB#4, 0xC#4, 0xD#4, 0xF#4]) ∨
    (opFamily op = 0xE#4 ∧ opN op ∉ [0x1#4, 0xE#4]) ∨
    (opFamily op = 0xF#4 ∧ opN op ∈ [0x0#4, 0x1#4, 0x2#4, 0x4#4, 0x6#4, 0xB#4, 0xC#4, 0xD#4, 0xF#4]) ∨
    (opFamily op = 0xF#4 ∧ opKK op ∈ [0x05#8, 0x25#8, 0x35#8, 0x45#8, 0x75#8, 0x85#8, 0x95#8, 0xA5#8, 0xB5#8, 0xC5#8,
      0xD5#8, 0xE5#8, 0xF5#8])

/-- Words of spec/95_test_vectors.md T-E, one or two of each family, decode to the instructions listed there. -/
def Obligations.SampleWordsDecode : Prop :=
  decode 0x00FF = .ok (.sys 0x0FF) ∧ decode 0x1ABC = .ok (.jp 0xABC) ∧ decode 0x3A12 = .ok (.seImm 0xA 0x12) ∧
  decode 0x5121 = .ok (.seReg 1 2 1) ∧ decode 0x8125 = .ok (.subReg 1 2) ∧ decode 0x812E = .ok (.shl 1 2) ∧
  decode 0x8128 = .error (.unrecognized 0x8128) ∧ decode 0xA123 = .ok (.ldI 0x123) ∧
  decode 0xD125 = .ok (.drw 1 2 5) ∧ decode 0xE10E = .ok (.skp 1 0) ∧ decode 0xF017 = .ok (.ldVxDT 0 1) ∧
  decode 0xF155 = .ok (.storeRegs 1) ∧ decode 0xF105 = .error (.unrecognized 0xF105)

/-! ### The instruction cycle -/

/-- Fetch (R57, R58; D12, D13): pc above 0xFFE faults first, then an odd pc; otherwise the opcode's high byte is the
byte at pc and its low byte the byte at pc + 1. -/
def Obligations.FetchIsGuardedAndBigEndian : Prop :=
  ∀ s : State,
    (s.pc.toNat > 0xFFE → fetch s = .error .fetchOutOfBounds) ∧
    (s.pc.toNat ≤ 0xFFE → s.pc.toNat % 2 = 1 → fetch s = .error .fetchMisaligned) ∧
    (Fetchable s.pc → ∃ op, fetch s = .ok op ∧ op.extractLsb' 8 8 = s.readByte s.pc.toNat ∧
      op.extractLsb' 0 8 = s.readByte (s.pc.toNat + 1))

/-- A step runs the decoded instruction (R100, R101; D11): when no fault is recorded, no key-wait is in progress, pc can
be fetched from and the two bytes there decode to `i`, the step is `exec` of `i` at that state, with nothing around it. -/
def Obligations.StepRunsTheDecodedInstruction : Prop :=
  ∀ (s : State) (i : Instr), s.Running → Fetchable s.pc →
    decodeBytes [s.readByte s.pc.toNat, s.readByte (s.pc.toNat + 1)] = .ok (i, []) → step s = exec i s

/-- `execute(op)` (R101; D2, D11): in a running state it runs the instruction of the supplied opcode, at the current pc,
with no fetch; an unrecognized opcode is recorded as ILLEGAL_OPCODE and nothing else changes. -/
def Obligations.ExecuteRunsTheSuppliedOpcode : Prop :=
  ∀ (s : State) (op : Word), s.Running →
    (∀ i, decode op = .ok i → executeOp op s = exec i s) ∧
    (∀ e, decode op = .error e →
      executeOp op s = .next { s with fault := some ⟨.illegalOpcode, s.pc, some op, none⟩ })

/-- R100, R224, R227 (D15, D19, D34): while a fault is recorded `step` and `execute` change nothing and report FAULTED
with its code; while a key-wait is in progress they change nothing and report HALTED; a step that runs reports FAULTED
with the code it recorded, or OK. -/
def Obligations.StepReportsAndHoldsWhileFaultedOrWaiting : Prop :=
  ∀ (s : State) (op : Word),
    (∀ f, s.fault = some f → step s = .next s ∧ executeOp op s = .next s ∧
      hostStep s = (s, .faulted f.code) ∧ hostExecute op s = (s, .faulted f.code)) ∧
    (∀ r, s.fault = none → s.halt = .waitKey r → step s = .next s ∧ executeOp op s = .next s ∧
      hostStep s = (s, .halted) ∧ hostExecute op s = (s, .halted)) ∧
    (s.Running → ∀ t, step s = .next t →
      hostStep s = (t, match t.fault with | some f => .faulted f.code | none => .ok))

/-- R226, R57, R85, R222 (D2, D12, D13, D32): in a running state a step takes the first of FETCH_OUT_OF_BOUNDS,
FETCH_MISALIGNED and ILLEGAL_OPCODE that holds; the record names pc, and the opcode when one was fetched; nothing else
changes. -/
def Obligations.StepTrapsInPriorityOrder : Prop :=
  ∀ s : State, s.Running →
    (s.pc.toNat > 0xFFE → step s = .next { s with fault := some ⟨.fetchOutOfBounds, s.pc, none, none⟩ }) ∧
    (s.pc.toNat ≤ 0xFFE → s.pc.toNat % 2 = 1 →
      step s = .next { s with fault := some ⟨.fetchMisaligned, s.pc, none, none⟩ }) ∧
    (Fetchable s.pc → ∀ op : Word, op = s.readByte s.pc.toNat ++ s.readByte (s.pc.toNat + 1) →
      decode op = .error (.unrecognized op) →
      step s = .next { s with fault := some ⟨.illegalOpcode, s.pc, some op, none⟩ })

/-- No step ends outside the spec's own states: every step answers a next state, an error of the spec being recorded in
the state (R222; log entry 3). -/
def Obligations.EveryStepAnswersANextState : Prop :=
  ∀ s : State, ∃ t, step s = .next t

/-- R102, R103, R105 (C2): every instruction but SYS, JP, CALL and JP V0 that completes is advanced by 2 after its rule:
from pc, from 2 past it when a skip is taken, from the popped address for RET. From a pc no run reaches the 16-bit sum
wraps (log entry 4). -/
def Obligations.CompletedInstructionsAdvanceByTwo : Prop :=
  ∀ (i : Instr) (s t : State) (base : Word), s.fault = none → exec i s = .next t → t.fault = none →
    advanceBase i s = some base → t.pc = base + 2

/-! ### Faults -/

/-- R105, R107, R162 (D3, D4, D20): CALL with sp = 15 and RET with sp = 0 trap, with no info; LD F of a register that
holds no hex digit traps, with info the register's value. Nothing else changes. -/
def Obligations.StackAndGlyphChecksTrap : Prop :=
  ∀ s : State, (∀ nnn, s.sp = 15 → TrapsWith (.call nnn) s .stackOverflow none) ∧
    (s.sp = 0 → TrapsWith .ret s .stackUnderflow none) ∧
    (∀ x h, (s.reg x).toNat > 0xF →
      ∃ v : Word, v.toNat = (s.reg x).toNat ∧ TrapsWith (.ldF x h) s .glyphOutOfRange (some v))

/-- R62, R163, R164, R165, R182 (D10): DXYN, FX33, FX55 and FX65 trap when an address of their block exceeds 0xFFF, with
info the lowest such address, max(I, 0x1000), and change nothing else. -/
def Obligations.BlockOutOfBoundsTraps : Prop :=
  ∀ (s : State) (x y n h : Nibble), ∃ a : Word, a.toNat = max s.I.toNat 0x1000 ∧
    (0 < n.toNat → s.I.toNat + n.toNat - 1 > 0xFFF → TrapsWith (.drw x y n) s .dataOutOfBounds (some a)) ∧
    (s.I.toNat + 2 > 0xFFF → TrapsWith (.ldB x h) s .dataOutOfBounds (some a)) ∧
    (s.I.toNat + x.toNat > 0xFFF → TrapsWith (.storeRegs x) s .dataOutOfBounds (some a) ∧
      TrapsWith (.loadRegs x) s .dataOutOfBounds (some a))

/-- R222, R223 (D32): faults are precise. Whatever instruction records a fault, the record names the pc and the opcode of
that instruction, and every other part of the state is as it was. -/
def Obligations.FaultEntryChangesOnlyTheRecord : Prop :=
  ∀ (i : Instr) (s t : State), s.fault = none → exec i s = .next t → t.fault ≠ none →
    ∃ code info, t = { s with fault := some ⟨code, s.pc, some (encode i), info⟩ }

/-- R221 (D3, D4, D10, D20): no instruction faults but these, each under its own condition. -/
def Obligations.OnlyListedInstructionsFault : Prop :=
  ∀ (i : Instr) (s t : State), s.fault = none → exec i s = .next t → t.fault ≠ none →
    (i = .ret ∧ s.sp = 0) ∨ (∃ nnn, i = .call nnn ∧ s.sp = 15) ∨
    (∃ x h, i = .ldF x h ∧ (s.reg x).toNat > 0xF) ∨
    (∃ x y n, i = .drw x y n ∧ 0 < n.toNat ∧ s.I.toNat + n.toNat - 1 > 0xFFF) ∨
    (∃ x h, i = .ldB x h ∧ s.I.toNat + 2 > 0xFFF) ∨
    (∃ x, i = .storeRegs x ∧ s.I.toNat + x.toNat > 0xFFF) ∨
    (∃ x, i = .loadRegs x ∧ s.I.toNat + x.toNat > 0xFFF)

/-- R224, R225 (D19): a fault is sticky. No sequence of host operations without `reset` clears or changes the record. -/
def Obligations.FaultPersistsUntilReset : Prop :=
  ∀ (ops : List HostOp) (s : State) (f : FaultRecord), HostOp.reset ∉ ops → s.fault = some f →
    (runOps ops s).1.fault = some f

/-! ### Invariants -/

/-- The state after reset meets the invariant, whatever the font. -/
def Obligations.ResetMeetsTheInvariant : Prop :=
  ∀ font : Font, FetchInv (State.resetWith font)

/-- Every step keeps the invariant: memory in canonical form, a fault excluding a key-wait (R39), pc within
0x0000..0x10FE (R25), every return address even and at most 0xFFE, stack[0] never written (R27). -/
def Obligations.StepKeepsTheInvariant : Prop :=
  ∀ s t : State, FetchInv s → step s = .next t → FetchInv t

/-- Every host operation, `execute` of any opcode at any pc among them, keeps the core invariant (R39, R222, R27). -/
def Obligations.EveryHostOperationKeepsTheCoreInvariant : Prop :=
  ∀ (o : HostOp) (s : State), CoreInv s → CoreInv (applyOp o s).1

/-- Every session, from any state that meets the invariant and in any order of operations (R235), keeps it, as long as
instructions are fetched (`step`) and not supplied (`execute`). -/
def Obligations.SessionsKeepTheInvariant : Prop :=
  ∀ (ops : List HostOp) (s : State), (∀ op, HostOp.execute op ∉ ops) → FetchInv s → FetchInv (runOps ops s).1

/-! ### Whole-machine rules -/

/-- R23 (D23) and the 'written by' lists of R24 to R33: an instruction changes only the parts its rule names. -/
def Obligations.InstructionsChangeOnlyTheirFootprint : Prop :=
  ∀ (i : Instr) (s t : State), exec i s = .next t → KeepsAllBut (footprint i) s t

/-- R22, R23 (D23): an instruction changes no general register but its destinations; VF is one only for ADD, SUB, SHR,
SUBN, SHL and DRW, and where the destination field names it. -/
def Obligations.InstructionsChangeOnlyTheirRegisters : Prop :=
  ∀ (i : Instr) (s t : State) (r : Nibble), exec i s = .next t → writesRegister i r = false → t.reg r = s.reg r

/-- R29, R38: no instruction reads the sound timer. Two states that differ only in ST give results that differ only in
ST. -/
def Obligations.SoundTimerIsNeverRead : Prop :=
  ∀ (i : Instr) (s t : State) (v : Byte), exec i s = .next t →
    ∃ u, exec i { s with ST := v } = .next u ∧ { u with ST := t.ST } = t

/-- R84 (C4): an alias encoding executes exactly as the canonical instruction with the same fields; only the opcode that
a fault records is the one executed. -/
def Obligations.AliasesExecuteAsCanonical : Prop :=
  ∀ (i : Instr) (s : State), s.fault = none → ∃ t u, exec i s = .next t ∧ exec i.canonical s = .next u ∧
    { t with fault := none } = { u with fault := none } ∧
    t.fault.map (fun f => (f.code, f.pc, f.info)) = u.fault.map (fun f => (f.code, f.pc, f.info))

/-! ### Control transfer -/

/-- R106: JP sets pc to nnn and changes nothing else. -/
def Obligations.JpSetsPc : Prop :=
  ∀ (nnn : Addr) (s : State), decode (0x1#4 ++ nnn : Word) = .ok (.jp nnn) ∧
    ∃ t, exec (.jp nnn) s = .next t ∧ t.pc.toNat = nnn.toNat ∧ KeepsAllBut [.pc] s t

/-- R104 (C1, C2) and R112 (D14): SYS sets pc to nnn; JP V0 sets pc to nnn + V0, with no wrap at 12 bits; neither changes
anything else. -/
def Obligations.SysAndJpV0SetPc : Prop :=
  ∀ (nnn : Addr) (s : State),
    (∃ t, exec (.sys nnn) s = .next t ∧ t.pc.toNat = nnn.toNat ∧ KeepsAllBut [.pc] s t) ∧
    (∃ t, exec (.jpV0 nnn) s = .next t ∧ t.pc.toNat = nnn.toNat + (s.reg 0x0#4).toNat ∧ KeepsAllBut [.pc] s t)

/-- R107 (D3): CALL with sp below 15 pushes its own address on the next entry, keeps every other entry, and jumps. -/
def Obligations.CallPushesItsOwnAddress : Prop :=
  ∀ (nnn : Addr) (s : State), s.sp ≠ 15 →
    ∃ t, exec (.call nnn) s = .next t ∧ t.sp.val = s.sp.val + 1 ∧ t.stack[t.sp] = s.pc ∧
      (∀ j : Fin 16, j ≠ t.sp → t.stack[j] = s.stack[j]) ∧ t.pc.toNat = nnn.toNat ∧
      KeepsAllBut [.pc, .sp, .stack] s t

/-- R105 (D4): RET with sp above 0 sets pc to the word after the popped address, lowers sp, and clears nothing. -/
def Obligations.RetPopsTheReturnAddress : Prop :=
  ∀ s : State, s.sp ≠ 0 →
    ∃ t, exec .ret s = .next t ∧ t.pc = s.stack[s.sp] + 2 ∧ t.sp.val + 1 = s.sp.val ∧ KeepsAllBut [.pc, .sp] s t

/-- R105, R107: a RET that finds sp and the stack as a CALL left them continues at the word after that CALL, with sp as
it was before it. -/
def Obligations.RetUndoesCall : Prop :=
  ∀ (nnn : Addr) (s t u : State), s.sp ≠ 15 → exec (.call nnn) s = .next t → u.sp = t.sp → u.stack = t.stack →
    ∃ w, exec .ret u = .next w ∧ w.pc = s.pc + 2 ∧ w.sp = s.sp

/-- R108, R109: the skips on an immediate. -/
def Obligations.SkipsOnAnImmediate : Prop :=
  ∀ (x : Nibble) (kk : Byte) (s : State),
    decode (0x3#4 ++ x ++ kk : Word) = .ok (.seImm x kk) ∧ SkipsWhen (.seImm x kk) s (s.reg x = kk) ∧
    decode (0x4#4 ++ x ++ kk : Word) = .ok (.sneImm x kk) ∧ SkipsWhen (.sneImm x kk) s (s.reg x ≠ kk)

/-- R110, R111: the skips on two registers, the low nibble ignored. -/
def Obligations.SkipsOnTwoRegisters : Prop :=
  ∀ (x y n : Nibble) (s : State),
    decode (0x5#4 ++ x ++ y ++ n : Word) = .ok (.seReg x y n) ∧ SkipsWhen (.seReg x y n) s (s.reg x = s.reg y) ∧
    decode (0x9#4 ++ x ++ y ++ n : Word) = .ok (.sneReg x y n) ∧ SkipsWhen (.sneReg x y n) s (s.reg x ≠ s.reg y)

/-- R200, R201: the skips on a key, bits [7:4] ignored. A key is held when its bit of `keys` is set (R32). That a number
above 0xF is never held, so that SKP never and SKNP always skips on it, is an inference: R200 and R201 mark it "[derived:
from 10_state.md rule R32]", and the model holds it by log entry 11 (DEDUCED). -/
def Obligations.SkipsOnAKey : Prop :=
  ∀ (x h : Nibble) (s : State),
    decode (0xE#4 ++ x ++ h ++ 0xE#4 : Word) = .ok (.skp x h) ∧
    SkipsWhen (.skp x h) s ((s.reg x).toNat ≤ 0xF ∧ s.keys.getLsbD (s.reg x).toNat = true) ∧
    decode (0xE#4 ++ x ++ h ++ 0x1#4 : Word) = .ok (.sknp x h) ∧
    SkipsWhen (.sknp x h) s (¬((s.reg x).toNat ≤ 0xF ∧ s.keys.getLsbD (s.reg x).toNat = true))

/-- R241, R106: a jump to its own address leaves the whole state unchanged. -/
def Obligations.SelfJumpLeavesTheState : Prop :=
  ∀ (s : State) (nnn : Addr), s.Running → Fetchable s.pc → nnn.toNat = s.pc.toNat →
    decodeBytes [s.readByte s.pc.toNat, s.readByte (s.pc.toNat + 1)] = .ok (.jp nnn, []) → step s = .next s

/-! ### Register arithmetic and logic -/

/-- R132 to R137: the moves, ADD of an immediate and the logic operations, for every x and y, VF included: the
destination alone is written. -/
def Obligations.MovesAndLogicWriteTheDestination : Prop :=
  ∀ (x y : Nibble) (kk : Byte) (s : State),
    (decode (0x6#4 ++ x ++ kk : Word) = .ok (.ldImm x kk) ∧ WritesReg (.ldImm x kk) s x kk.toNat) ∧
    (decode (0x7#4 ++ x ++ kk : Word) = .ok (.addImm x kk) ∧
      WritesReg (.addImm x kk) s x (((s.reg x).toNat + kk.toNat) % 256)) ∧
    (decode (0x8#4 ++ x ++ y ++ 0x0#4 : Word) = .ok (.ldReg x y) ∧ WritesReg (.ldReg x y) s x (s.reg y).toNat) ∧
    (decode (0x8#4 ++ x ++ y ++ 0x1#4 : Word) = .ok (.orReg x y) ∧
      WritesReg (.orReg x y) s x ((s.reg x).toNat ||| (s.reg y).toNat)) ∧
    (decode (0x8#4 ++ x ++ y ++ 0x2#4 : Word) = .ok (.andReg x y) ∧
      WritesReg (.andReg x y) s x ((s.reg x).toNat &&& (s.reg y).toNat)) ∧
    (decode (0x8#4 ++ x ++ y ++ 0x3#4 : Word) = .ok (.xorReg x y) ∧
      WritesReg (.xorReg x y) s x ((s.reg x).toNat ^^^ (s.reg y).toNat))

/-- R138: ADD with carry. The sum is of the old registers, so y may be VF; when x is VF the carry
is lost. Both VF cases rest on the order of the spec's decision D22 (log entry 7). -/
def Obligations.AddSetsTheCarry : Prop :=
  ∀ (x y : Nibble) (s : State),
    decode (0x8#4 ++ x ++ y ++ 0x4#4 : Word) = .ok (.addReg x y) ∧
    (x ≠ 0xF#4 → WritesRegAndFlag (.addReg x y) s x (((s.reg x).toNat + (s.reg y).toNat) % 256)
      (if (s.reg x).toNat + (s.reg y).toNat > 255 then 1 else 0)) ∧
    (x = 0xF#4 → WritesReg (.addReg x y) s x (((s.reg x).toNat + (s.reg y).toNat) % 256))

/-- R139: SUB. The flag is 1 iff V[x] > V[y], strictly; it is written first, and the subtraction reads the registers as
they then stand, which decides the cases where x or y is VF (the spec's decision D22; log entry 7). -/
def Obligations.SubSetsTheFlagFirst : Prop :=
  ∀ (x y : Nibble) (s : State),
    decode (0x8#4 ++ x ++ y ++ 0x5#4 : Word) = .ok (.subReg x y) ∧
    (∀ f : Nat, f = (if (s.reg x).toNat > (s.reg y).toNat then 1 else 0) →
      (x ≠ 0xF#4 → y ≠ 0xF#4 →
        WritesRegAndFlag (.subReg x y) s x (((s.reg x).toNat + 256 - (s.reg y).toNat) % 256) f) ∧
      (x ≠ 0xF#4 → y = 0xF#4 → WritesRegAndFlag (.subReg x y) s x (((s.reg x).toNat + 256 - f) % 256) f) ∧
      (x = 0xF#4 → y ≠ 0xF#4 → WritesReg (.subReg x y) s x ((f + 256 - (s.reg y).toNat) % 256)) ∧
      (x = 0xF#4 → y = 0xF#4 → WritesReg (.subReg x y) s x 0))

/-- R141: SUBN, the subtraction the other way round, with the same order of flag and difference (D22; log entry 7). -/
def Obligations.SubnSetsTheFlagFirst : Prop :=
  ∀ (x y : Nibble) (s : State),
    decode (0x8#4 ++ x ++ y ++ 0x7#4 : Word) = .ok (.subnReg x y) ∧
    (∀ f : Nat, f = (if (s.reg y).toNat > (s.reg x).toNat then 1 else 0) →
      (x ≠ 0xF#4 → y ≠ 0xF#4 →
        WritesRegAndFlag (.subnReg x y) s x (((s.reg y).toNat + 256 - (s.reg x).toNat) % 256) f) ∧
      (x ≠ 0xF#4 → y = 0xF#4 → WritesRegAndFlag (.subnReg x y) s x ((f + 256 - (s.reg x).toNat) % 256) f) ∧
      (x = 0xF#4 → y ≠ 0xF#4 → WritesReg (.subnReg x y) s x (((s.reg y).toNat + 256 - f) % 256)) ∧
      (x = 0xF#4 → y = 0xF#4 → WritesReg (.subnReg x y) s x 0))

/-- R140, R142: the shifts read V[x] and never V[y]; VF is the bit shifted out, written first (for x = F: D22,
log entry 7). -/
def Obligations.ShiftsMoveTheBitOutToVF : Prop :=
  ∀ (x y : Nibble) (s : State),
    decode (0x8#4 ++ x ++ y ++ 0x6#4 : Word) = .ok (.shr x y) ∧
    (x ≠ 0xF#4 → WritesRegAndFlag (.shr x y) s x ((s.reg x).toNat / 2) ((s.reg x).toNat % 2)) ∧
    (x = 0xF#4 → WritesReg (.shr x y) s x 0) ∧
    decode (0x8#4 ++ x ++ y ++ 0xE#4 : Word) = .ok (.shl x y) ∧
    (x ≠ 0xF#4 → WritesRegAndFlag (.shl x y) s x (2 * (s.reg x).toNat % 256) ((s.reg x).toNat / 128)) ∧
    (x = 0xF#4 → WritesReg (.shl x y) s x (2 * ((s.reg x).toNat / 128)))

/-- R143 (D25): RND writes a fresh draw AND kk. The draw is the free value of log entry 2, so the statement holds for
every byte the source can hand over; a bit that is 0 in kk is always 0. -/
def Obligations.RndMasksAFreshDraw : Prop :=
  ∀ (x : Nibble) (kk : Byte) (s : State),
    ∃ t, exec (.rnd x kk) s = .next t ∧ t.reg x = Config.randomByte s.draws &&& kk ∧
      (∀ b, kk.getLsbD b = false → (t.reg x).getLsbD b = false) ∧ t.draws = s.draws + 1 ∧
      KeepsRegsBut [x] s t ∧ t.pc = s.pc + 2 ∧ KeepsAllBut [.V, .pc, .draws] s t

/-! ### Index register and memory -/

/-- R160: LD I sets I to nnn and changes nothing else but pc. -/
def Obligations.LdISetsI : Prop :=
  ∀ (nnn : Addr) (s : State), decode (0xA#4 ++ nnn : Word) = .ok (.ldI nnn) ∧
    ∃ t, exec (.ldI nnn) s = .next t ∧ t.I.toNat = nnn.toNat ∧ t.pc = s.pc + 2 ∧ KeepsAllBut [.I, .pc] s t

/-- R161 (D9): ADD I adds with no wrap at 12 bits, modulo 0x10000, and leaves VF alone. -/
def Obligations.AddIDoesNotWrapAtTwelveBits : Prop :=
  ∀ (x h : Nibble) (s : State),
    ∃ t, exec (.addI x h) s = .next t ∧ t.I.toNat = (s.I.toNat + (s.reg x).toNat) % 0x10000 ∧
      t.pc = s.pc + 2 ∧ KeepsAllBut [.I, .pc] s t

/-- R162, R55 (D20, D21): LD F of a hex digit d sets I to 5 * d. -/
def Obligations.LdFPointsAtTheGlyph : Prop :=
  ∀ (x h : Nibble) (s : State), (s.reg x).toNat ≤ 0xF →
    ∃ t, exec (.ldF x h) s = .next t ∧ t.I.toNat = 5 * (s.reg x).toNat ∧ t.pc = s.pc + 2 ∧ KeepsAllBut [.I, .pc] s t

/-- R163 (D10): LD B stores hundreds, tens and ones at I, I+1 and I+2 and changes no other byte, nor I. -/
def Obligations.LdBStoresTheDecimalDigits : Prop :=
  ∀ (x h : Nibble) (s : State), s.I.toNat + 2 ≤ 0xFFF →
    ∃ t, exec (.ldB x h) s = .next t ∧
      (t.readByte s.I.toNat).toNat = (s.reg x).toNat / 100 ∧
      (t.readByte (s.I.toNat + 1)).toNat = (s.reg x).toNat / 10 % 10 ∧
      (t.readByte (s.I.toNat + 2)).toNat = (s.reg x).toNat % 10 ∧
      (∀ a, (a < s.I.toNat ∨ s.I.toNat + 2 < a) → t.readByte a = s.readByte a) ∧
      t.pc = s.pc + 2 ∧ KeepsAllBut [.mem, .pc] s t

/-- R164 (D10): LD [I],Vx stores V0..Vx at I..I+x and changes no other byte, nor I. -/
def Obligations.StoreRegsWritesTheBlock : Prop :=
  ∀ (x : Nibble) (s : State), s.I.toNat + x.toNat ≤ 0xFFF →
    ∃ t, exec (.storeRegs x) s = .next t ∧
      (∀ k : Nibble, k.toNat ≤ x.toNat → t.readByte (s.I.toNat + k.toNat) = s.reg k) ∧
      (∀ a, (a < s.I.toNat ∨ s.I.toNat + x.toNat < a) → t.readByte a = s.readByte a) ∧
      t.pc = s.pc + 2 ∧ KeepsAllBut [.mem, .pc] s t

/-- R165 (D10): LD Vx,[I] loads V0..Vx from I..I+x and changes no register above Vx, nor I. -/
def Obligations.LoadRegsReadsTheBlock : Prop :=
  ∀ (x : Nibble) (s : State), s.I.toNat + x.toNat ≤ 0xFFF →
    ∃ t, exec (.loadRegs x) s = .next t ∧
      (∀ k : Nibble, k.toNat ≤ x.toNat → t.reg k = s.readByte (s.I.toNat + k.toNat)) ∧
      (∀ k : Nibble, k.toNat > x.toNat → t.reg k = s.reg k) ∧
      t.pc = s.pc + 2 ∧ KeepsAllBut [.V, .pc] s t

/-! ### Display -/

/-- R181: CLS clears every pixel and changes nothing else but pc. -/
def Obligations.ClsClearsEveryPixel : Prop :=
  ∀ s : State, decode 0x00E0#16 = .ok .cls ∧
    ∃ t, exec .cls s = .next t ∧ (∀ r c, r < 32 → c < 64 → pixelAt t.disp r c = false) ∧
      t.pc = s.pc + 2 ∧ KeepsAllBut [.disp, .pc] s t

/-- R183, R184, R185: the blit, pixel by pixel. When the sprite lies in memory, DRW inverts exactly the pixels that have
a 1 bit of the sprite on them, rows and columns wrapping, and VF is 1 exactly when some pixel went from set to unset.
That x or y = F takes the old VF as its coordinate is the spec's decision D22, which the model follows (log entry 7). -/
def Obligations.DrwInvertsTheSpritesPixels : Prop :=
  ∀ (x y n : Nibble) (s : State), n.toNat = 0 ∨ s.I.toNat + n.toNat - 1 ≤ 0xFFF →
    ∃ t, exec (.drw x y n) s = .next t ∧
      (∀ r c, r < 32 → c < 64 →
        (SpriteCovers s (s.reg x).toNat (s.reg y).toNat n.toNat r c → pixelAt t.disp r c = !pixelAt s.disp r c) ∧
        (¬SpriteCovers s (s.reg x).toNat (s.reg y).toNat n.toNat r c → pixelAt t.disp r c = pixelAt s.disp r c)) ∧
      ((∃ r c, r < 32 ∧ c < 64 ∧ pixelAt s.disp r c = true ∧ pixelAt t.disp r c = false) → t.reg 0xF#4 = 1) ∧
      ((¬∃ r c, r < 32 ∧ c < 64 ∧ pixelAt s.disp r c = true ∧ pixelAt t.disp r c = false) → t.reg 0xF#4 = 0) ∧
      KeepsRegsBut [0xF#4] s t ∧ t.pc = s.pc + 2 ∧ KeepsAllBut [.disp, .V, .pc] s t

/-- R182, R186: drawing the same sprite at the same place a second time restores the display. -/
def Obligations.DrawingTwiceRestoresTheDisplay : Prop :=
  ∀ (x y n : Nibble) (s t u w : State), s.fault = none → exec (.drw x y n) s = .next t → t.fault = none →
    u.disp = t.disp → u.reg x = s.reg x → u.reg y = s.reg y → u.I = s.I →
    (∀ a, u.readByte a = s.readByte a) → exec (.drw x y n) u = .next w → w.disp = s.disp

/-! ### Keys and timers -/

/-- R202, R204, R205: the timer moves, bits [7:4] ignored where the decoder ignores them. -/
def Obligations.TimerMovesCopyTheByte : Prop :=
  ∀ (x h : Nibble) (s : State),
    (decode (0xF#4 ++ x ++ h ++ 0x7#4 : Word) = .ok (.ldVxDT x h) ∧ WritesReg (.ldVxDT x h) s x s.DT.toNat) ∧
    (decode (0xF#4 ++ x ++ 0x15#8 : Word) = .ok (.ldDT x) ∧ ∃ t, exec (.ldDT x) s = .next t ∧ t.DT = s.reg x ∧
      t.pc = s.pc + 2 ∧ KeepsAllBut [.DT, .pc] s t) ∧
    (decode (0xF#4 ++ x ++ h ++ 0x8#4 : Word) = .ok (.ldST x h) ∧ ∃ t, exec (.ldST x h) s = .next t ∧
      t.ST = s.reg x ∧ t.pc = s.pc + 2 ∧ KeepsAllBut [.ST, .pc] s t)

/-- R203, R100 (D15): LD Vx,K enters the key-wait for register x with pc already advanced and V[x] not written, and the
steps after it do nothing. -/
def Obligations.LdKeyEntersTheWait : Prop :=
  ∀ (x h : Nibble) (s : State),
    ∃ t, exec (.ldKey x h) s = .next t ∧ t.halt = .waitKey x ∧ t.pc = s.pc + 2 ∧ KeepsAllBut [.halt, .pc] s t ∧
      step t = .next t

/-- R233, R234 (D16, D17): a press adds the key and ends a key-wait with the key's number in the awaited register, pc
unchanged; a release removes the key and ends no wait; a key code above 0xF is rejected and changes nothing. -/
def Obligations.KeyEventsUpdateKeysAndResolveTheWait : Prop :=
  ∀ (k : Nat) (s : State),
    (k > 0xF → ∀ pressed, deliverKeyEvent k pressed s = (s, .rejectedBadKey)) ∧
    (k ≤ 0xF → ∃ t, deliverKeyEvent k true s = (t, .ok) ∧
      (∀ j, t.keys.getLsbD j = (s.keys.getLsbD j || decide (j = k))) ∧ t.halt = .notHalted ∧
      (∀ r, s.halt = .waitKey r → (t.reg r).toNat = k ∧ KeepsRegsBut [r] s t) ∧
      (s.halt = .notHalted → t.V = s.V) ∧ KeepsAllBut [.V, .keys, .halt] s t) ∧
    (k ≤ 0xF → ∃ t, deliverKeyEvent k false s = (t, .ok) ∧
      (∀ j, t.keys.getLsbD j = (s.keys.getLsbD j && !decide (j = k))) ∧ KeepsAllBut [.keys] s t)

/-- R230, R268 (D18): any number of ticks, in any state, takes each timer down by that number, floored at 0, and changes
nothing else. -/
def Obligations.TicksCountDownToZero : Prop :=
  ∀ (n : Nat) (s t : State), t = (runOps (List.replicate n .tickTimers) s).1 →
    t.DT.toNat = s.DT.toNat - n ∧ t.ST.toNat = s.ST.toNat - n ∧ KeepsAllBut [.DT, .ST] s t

/-! ### Reset and loading -/

/-- R260, R40, R55, C7: what `reset` leaves, from any state: registers, stack, timers, I and sp zero, pc 0x200, the
display clear, no key held, no wait, no fault, the font in 0x000..0x04F and zero above it. The values of I, sp, DT, ST,
keys, halt and fault are the spec's decisions D5 to D8; FONT is the machine's parameter (log entry 1). -/
def Obligations.ResetReplacesTheState : Prop :=
  ∀ s t : State, t = (applyOp .reset s).1 →
    (∀ x, t.reg x = 0) ∧ t.I = 0 ∧ t.pc = 0x200 ∧ (∀ j : Fin 16, t.stack[j] = 0) ∧ t.sp = 0 ∧ t.DT = 0 ∧ t.ST = 0 ∧
    (∀ r c, r < 32 → c < 64 → pixelAt t.disp r c = false) ∧ t.keys = 0 ∧ t.halt = .notHalted ∧ t.fault = none ∧
    t.font = s.font ∧ (∀ (d : Fin 16) (r : Fin 5), t.readByte (5 * d.val + r.val) = s.font[d][r]) ∧
    (∀ a, 0x050 ≤ a → a ≤ 0xFFF → t.readByte a = 0)

/-- R262 (D24): loadProgram writes the image at 0x200 and up and changes no other byte and no other part of the state; an
image longer than 0xE00 bytes is rejected and changes nothing. -/
def Obligations.LoadProgramWritesTheImage : Prop :=
  ∀ (bytes : List Byte) (s : State),
    (bytes.length > 0xE00 → loadProgram bytes s = (s, .rejectedTooLarge)) ∧
    (bytes.length ≤ 0xE00 → ∃ t, loadProgram bytes s = (t, .ok) ∧
      (∀ (k : Nat) (h : k < bytes.length), t.readByte (0x200 + k) = bytes[k]) ∧
      (∀ a, (a < 0x200 ∨ 0x200 + bytes.length ≤ a) → t.readByte a = s.readByte a) ∧ KeepsAllBut [.mem] s t)
end

