-- ==== Sys2Proof/Laws/State.lean ====
section
/-! SUPPORT. What each named update does to each field of the state: one lemma per field per update, true by rfl, so
that no later proof unfolds a record update; then registers and memory read through an update. -/

namespace Sys2Proof.Machine

/-! ### `setReg` -/

@[simp] theorem setReg_V (s : State) (x : Nibble) (v : Byte) : (s.setReg x v).V = s.V.set x.toNat v x.isLt := rfl
@[simp] theorem setReg_I (s : State) (x : Nibble) (v : Byte) : (s.setReg x v).I = s.I := rfl
@[simp] theorem setReg_pc (s : State) (x : Nibble) (v : Byte) : (s.setReg x v).pc = s.pc := rfl
@[simp] theorem setReg_stack (s : State) (x : Nibble) (v : Byte) : (s.setReg x v).stack = s.stack := rfl
@[simp] theorem setReg_sp (s : State) (x : Nibble) (v : Byte) : (s.setReg x v).sp = s.sp := rfl
@[simp] theorem setReg_DT (s : State) (x : Nibble) (v : Byte) : (s.setReg x v).DT = s.DT := rfl
@[simp] theorem setReg_ST (s : State) (x : Nibble) (v : Byte) : (s.setReg x v).ST = s.ST := rfl
@[simp] theorem setReg_mem (s : State) (x : Nibble) (v : Byte) : (s.setReg x v).mem = s.mem := rfl
@[simp] theorem setReg_disp (s : State) (x : Nibble) (v : Byte) : (s.setReg x v).disp = s.disp := rfl
@[simp] theorem setReg_keys (s : State) (x : Nibble) (v : Byte) : (s.setReg x v).keys = s.keys := rfl
@[simp] theorem setReg_halt (s : State) (x : Nibble) (v : Byte) : (s.setReg x v).halt = s.halt := rfl
@[simp] theorem setReg_fault (s : State) (x : Nibble) (v : Byte) : (s.setReg x v).fault = s.fault := rfl
@[simp] theorem setReg_draws (s : State) (x : Nibble) (v : Byte) : (s.setReg x v).draws = s.draws := rfl
@[simp] theorem setReg_font (s : State) (x : Nibble) (v : Byte) : (s.setReg x v).font = s.font := rfl
@[simp] theorem readByte_setReg (s : State) (x : Nibble) (v : Byte) (i : Nat) : (s.setReg x v).readByte i = s.readByte i := rfl

/-! ### `setI` -/

@[simp] theorem setI_V (s : State) (v : Word) : (s.setI v).V = s.V := rfl
@[simp] theorem setI_I (s : State) (v : Word) : (s.setI v).I = v := rfl
@[simp] theorem setI_pc (s : State) (v : Word) : (s.setI v).pc = s.pc := rfl
@[simp] theorem setI_stack (s : State) (v : Word) : (s.setI v).stack = s.stack := rfl
@[simp] theorem setI_sp (s : State) (v : Word) : (s.setI v).sp = s.sp := rfl
@[simp] theorem setI_DT (s : State) (v : Word) : (s.setI v).DT = s.DT := rfl
@[simp] theorem setI_ST (s : State) (v : Word) : (s.setI v).ST = s.ST := rfl
@[simp] theorem setI_mem (s : State) (v : Word) : (s.setI v).mem = s.mem := rfl
@[simp] theorem setI_disp (s : State) (v : Word) : (s.setI v).disp = s.disp := rfl
@[simp] theorem setI_keys (s : State) (v : Word) : (s.setI v).keys = s.keys := rfl
@[simp] theorem setI_halt (s : State) (v : Word) : (s.setI v).halt = s.halt := rfl
@[simp] theorem setI_fault (s : State) (v : Word) : (s.setI v).fault = s.fault := rfl
@[simp] theorem setI_draws (s : State) (v : Word) : (s.setI v).draws = s.draws := rfl
@[simp] theorem setI_font (s : State) (v : Word) : (s.setI v).font = s.font := rfl
@[simp] theorem reg_setI (s : State) (v : Word) (y : Nibble) : (s.setI v).reg y = s.reg y := rfl
@[simp] theorem readByte_setI (s : State) (v : Word) (i : Nat) : (s.setI v).readByte i = s.readByte i := rfl

/-! ### `jumpTo` -/

@[simp] theorem jumpTo_V (s : State) (a : Word) : (s.jumpTo a).V = s.V := rfl
@[simp] theorem jumpTo_I (s : State) (a : Word) : (s.jumpTo a).I = s.I := rfl
@[simp] theorem jumpTo_pc (s : State) (a : Word) : (s.jumpTo a).pc = a := rfl
@[simp] theorem jumpTo_stack (s : State) (a : Word) : (s.jumpTo a).stack = s.stack := rfl
@[simp] theorem jumpTo_sp (s : State) (a : Word) : (s.jumpTo a).sp = s.sp := rfl
@[simp] theorem jumpTo_DT (s : State) (a : Word) : (s.jumpTo a).DT = s.DT := rfl
@[simp] theorem jumpTo_ST (s : State) (a : Word) : (s.jumpTo a).ST = s.ST := rfl
@[simp] theorem jumpTo_mem (s : State) (a : Word) : (s.jumpTo a).mem = s.mem := rfl
@[simp] theorem jumpTo_disp (s : State) (a : Word) : (s.jumpTo a).disp = s.disp := rfl
@[simp] theorem jumpTo_keys (s : State) (a : Word) : (s.jumpTo a).keys = s.keys := rfl
@[simp] theorem jumpTo_halt (s : State) (a : Word) : (s.jumpTo a).halt = s.halt := rfl
@[simp] theorem jumpTo_fault (s : State) (a : Word) : (s.jumpTo a).fault = s.fault := rfl
@[simp] theorem jumpTo_draws (s : State) (a : Word) : (s.jumpTo a).draws = s.draws := rfl
@[simp] theorem jumpTo_font (s : State) (a : Word) : (s.jumpTo a).font = s.font := rfl
@[simp] theorem reg_jumpTo (s : State) (a : Word) (y : Nibble) : (s.jumpTo a).reg y = s.reg y := rfl
@[simp] theorem readByte_jumpTo (s : State) (a : Word) (i : Nat) : (s.jumpTo a).readByte i = s.readByte i := rfl

/-! ### `advance` -/

@[simp] theorem advance_V (s : State) : s.advance.V = s.V := rfl
@[simp] theorem advance_I (s : State) : s.advance.I = s.I := rfl
@[simp] theorem advance_pc (s : State) : s.advance.pc = s.pc + 2 := rfl
@[simp] theorem advance_stack (s : State) : s.advance.stack = s.stack := rfl
@[simp] theorem advance_sp (s : State) : s.advance.sp = s.sp := rfl
@[simp] theorem advance_DT (s : State) : s.advance.DT = s.DT := rfl
@[simp] theorem advance_ST (s : State) : s.advance.ST = s.ST := rfl
@[simp] theorem advance_mem (s : State) : s.advance.mem = s.mem := rfl
@[simp] theorem advance_disp (s : State) : s.advance.disp = s.disp := rfl
@[simp] theorem advance_keys (s : State) : s.advance.keys = s.keys := rfl
@[simp] theorem advance_halt (s : State) : s.advance.halt = s.halt := rfl
@[simp] theorem advance_fault (s : State) : s.advance.fault = s.fault := rfl
@[simp] theorem advance_draws (s : State) : s.advance.draws = s.draws := rfl
@[simp] theorem advance_font (s : State) : s.advance.font = s.font := rfl
@[simp] theorem reg_advance (s : State) (y : Nibble) : s.advance.reg y = s.reg y := rfl
@[simp] theorem readByte_advance (s : State) (i : Nat) : s.advance.readByte i = s.readByte i := rfl

/-! ### `pushAndJump` -/

@[simp] theorem pushAndJump_V (s : State) (a : Word) : (s.pushAndJump a).V = s.V := rfl
@[simp] theorem pushAndJump_I (s : State) (a : Word) : (s.pushAndJump a).I = s.I := rfl
@[simp] theorem pushAndJump_pc (s : State) (a : Word) : (s.pushAndJump a).pc = a := rfl
@[simp] theorem pushAndJump_stack (s : State) (a : Word) : (s.pushAndJump a).stack = s.stack.set (s.sp + 1 : Fin 16).val s.pc (s.sp + 1 : Fin 16).isLt := rfl
@[simp] theorem pushAndJump_sp (s : State) (a : Word) : (s.pushAndJump a).sp = s.sp + 1 := rfl
@[simp] theorem pushAndJump_DT (s : State) (a : Word) : (s.pushAndJump a).DT = s.DT := rfl
@[simp] theorem pushAndJump_ST (s : State) (a : Word) : (s.pushAndJump a).ST = s.ST := rfl
@[simp] theorem pushAndJump_mem (s : State) (a : Word) : (s.pushAndJump a).mem = s.mem := rfl
@[simp] theorem pushAndJump_disp (s : State) (a : Word) : (s.pushAndJump a).disp = s.disp := rfl
@[simp] theorem pushAndJump_keys (s : State) (a : Word) : (s.pushAndJump a).keys = s.keys := rfl
@[simp] theorem pushAndJump_halt (s : State) (a : Word) : (s.pushAndJump a).halt = s.halt := rfl
@[simp] theorem pushAndJump_fault (s : State) (a : Word) : (s.pushAndJump a).fault = s.fault := rfl
@[simp] theorem pushAndJump_draws (s : State) (a : Word) : (s.pushAndJump a).draws = s.draws := rfl
@[simp] theorem pushAndJump_font (s : State) (a : Word) : (s.pushAndJump a).font = s.font := rfl
@[simp] theorem reg_pushAndJump (s : State) (a : Word) (y : Nibble) : (s.pushAndJump a).reg y = s.reg y := rfl
@[simp] theorem readByte_pushAndJump (s : State) (a : Word) (i : Nat) : (s.pushAndJump a).readByte i = s.readByte i := rfl

/-! ### `popReturn` -/

@[simp] theorem popReturn_V (s : State) : s.popReturn.V = s.V := rfl
@[simp] theorem popReturn_I (s : State) : s.popReturn.I = s.I := rfl
@[simp] theorem popReturn_pc (s : State) : s.popReturn.pc = s.stack[s.sp] := rfl
@[simp] theorem popReturn_stack (s : State) : s.popReturn.stack = s.stack := rfl
@[simp] theorem popReturn_sp (s : State) : s.popReturn.sp = s.sp - 1 := rfl
@[simp] theorem popReturn_DT (s : State) : s.popReturn.DT = s.DT := rfl
@[simp] theorem popReturn_ST (s : State) : s.popReturn.ST = s.ST := rfl
@[simp] theorem popReturn_mem (s : State) : s.popReturn.mem = s.mem := rfl
@[simp] theorem popReturn_disp (s : State) : s.popReturn.disp = s.disp := rfl
@[simp] theorem popReturn_keys (s : State) : s.popReturn.keys = s.keys := rfl
@[simp] theorem popReturn_halt (s : State) : s.popReturn.halt = s.halt := rfl
@[simp] theorem popReturn_fault (s : State) : s.popReturn.fault = s.fault := rfl
@[simp] theorem popReturn_draws (s : State) : s.popReturn.draws = s.draws := rfl
@[simp] theorem popReturn_font (s : State) : s.popReturn.font = s.font := rfl
@[simp] theorem reg_popReturn (s : State) (y : Nibble) : s.popReturn.reg y = s.reg y := rfl
@[simp] theorem readByte_popReturn (s : State) (i : Nat) : s.popReturn.readByte i = s.readByte i := rfl

/-! ### `writeBytes` -/

@[simp] theorem writeBytes_V (s : State) (a : Nat) (bs : List Byte) : (s.writeBytes a bs).V = s.V := rfl
@[simp] theorem writeBytes_I (s : State) (a : Nat) (bs : List Byte) : (s.writeBytes a bs).I = s.I := rfl
@[simp] theorem writeBytes_pc (s : State) (a : Nat) (bs : List Byte) : (s.writeBytes a bs).pc = s.pc := rfl
@[simp] theorem writeBytes_stack (s : State) (a : Nat) (bs : List Byte) : (s.writeBytes a bs).stack = s.stack := rfl
@[simp] theorem writeBytes_sp (s : State) (a : Nat) (bs : List Byte) : (s.writeBytes a bs).sp = s.sp := rfl
@[simp] theorem writeBytes_DT (s : State) (a : Nat) (bs : List Byte) : (s.writeBytes a bs).DT = s.DT := rfl
@[simp] theorem writeBytes_ST (s : State) (a : Nat) (bs : List Byte) : (s.writeBytes a bs).ST = s.ST := rfl
@[simp] theorem writeBytes_mem (s : State) (a : Nat) (bs : List Byte) : (s.writeBytes a bs).mem = Memory.writeBlock s.font s.mem a bs := rfl
@[simp] theorem writeBytes_disp (s : State) (a : Nat) (bs : List Byte) : (s.writeBytes a bs).disp = s.disp := rfl
@[simp] theorem writeBytes_keys (s : State) (a : Nat) (bs : List Byte) : (s.writeBytes a bs).keys = s.keys := rfl
@[simp] theorem writeBytes_halt (s : State) (a : Nat) (bs : List Byte) : (s.writeBytes a bs).halt = s.halt := rfl
@[simp] theorem writeBytes_fault (s : State) (a : Nat) (bs : List Byte) : (s.writeBytes a bs).fault = s.fault := rfl
@[simp] theorem writeBytes_draws (s : State) (a : Nat) (bs : List Byte) : (s.writeBytes a bs).draws = s.draws := rfl
@[simp] theorem writeBytes_font (s : State) (a : Nat) (bs : List Byte) : (s.writeBytes a bs).font = s.font := rfl
@[simp] theorem reg_writeBytes (s : State) (a : Nat) (bs : List Byte) (y : Nibble) : (s.writeBytes a bs).reg y = s.reg y := rfl

/-! ### `raise` -/

@[simp] theorem raise_V (s : State) (c : FaultCode) (o n : Option Word) : (s.raise c o n).V = s.V := rfl
@[simp] theorem raise_I (s : State) (c : FaultCode) (o n : Option Word) : (s.raise c o n).I = s.I := rfl
@[simp] theorem raise_pc (s : State) (c : FaultCode) (o n : Option Word) : (s.raise c o n).pc = s.pc := rfl
@[simp] theorem raise_stack (s : State) (c : FaultCode) (o n : Option Word) : (s.raise c o n).stack = s.stack := rfl
@[simp] theorem raise_sp (s : State) (c : FaultCode) (o n : Option Word) : (s.raise c o n).sp = s.sp := rfl
@[simp] theorem raise_DT (s : State) (c : FaultCode) (o n : Option Word) : (s.raise c o n).DT = s.DT := rfl
@[simp] theorem raise_ST (s : State) (c : FaultCode) (o n : Option Word) : (s.raise c o n).ST = s.ST := rfl
@[simp] theorem raise_mem (s : State) (c : FaultCode) (o n : Option Word) : (s.raise c o n).mem = s.mem := rfl
@[simp] theorem raise_disp (s : State) (c : FaultCode) (o n : Option Word) : (s.raise c o n).disp = s.disp := rfl
@[simp] theorem raise_keys (s : State) (c : FaultCode) (o n : Option Word) : (s.raise c o n).keys = s.keys := rfl
@[simp] theorem raise_halt (s : State) (c : FaultCode) (o n : Option Word) : (s.raise c o n).halt = s.halt := rfl
@[simp] theorem raise_fault (s : State) (c : FaultCode) (o n : Option Word) : (s.raise c o n).fault = some ⟨c, s.pc, o, n⟩ := rfl
@[simp] theorem raise_draws (s : State) (c : FaultCode) (o n : Option Word) : (s.raise c o n).draws = s.draws := rfl
@[simp] theorem raise_font (s : State) (c : FaultCode) (o n : Option Word) : (s.raise c o n).font = s.font := rfl
@[simp] theorem reg_raise (s : State) (c : FaultCode) (o n : Option Word) (y : Nibble) : (s.raise c o n).reg y = s.reg y := rfl
@[simp] theorem readByte_raise (s : State) (c : FaultCode) (o n : Option Word) (i : Nat) : (s.raise c o n).readByte i = s.readByte i := rfl

/-! ### `drawByte` -/

@[simp] theorem drawByte_V (s : State) : s.drawByte.2.V = s.V := rfl
@[simp] theorem drawByte_I (s : State) : s.drawByte.2.I = s.I := rfl
@[simp] theorem drawByte_pc (s : State) : s.drawByte.2.pc = s.pc := rfl
@[simp] theorem drawByte_stack (s : State) : s.drawByte.2.stack = s.stack := rfl
@[simp] theorem drawByte_sp (s : State) : s.drawByte.2.sp = s.sp := rfl
@[simp] theorem drawByte_DT (s : State) : s.drawByte.2.DT = s.DT := rfl
@[simp] theorem drawByte_ST (s : State) : s.drawByte.2.ST = s.ST := rfl
@[simp] theorem drawByte_mem (s : State) : s.drawByte.2.mem = s.mem := rfl
@[simp] theorem drawByte_disp (s : State) : s.drawByte.2.disp = s.disp := rfl
@[simp] theorem drawByte_keys (s : State) : s.drawByte.2.keys = s.keys := rfl
@[simp] theorem drawByte_halt (s : State) : s.drawByte.2.halt = s.halt := rfl
@[simp] theorem drawByte_fault (s : State) : s.drawByte.2.fault = s.fault := rfl
@[simp] theorem drawByte_draws (s : State) : s.drawByte.2.draws = s.draws + 1 := rfl
@[simp] theorem drawByte_font (s : State) : s.drawByte.2.font = s.font := rfl
@[simp] theorem reg_drawByte (s : State) (y : Nibble) : s.drawByte.2.reg y = s.reg y := rfl
@[simp] theorem readByte_drawByte (s : State) (i : Nat) : s.drawByte.2.readByte i = s.readByte i := rfl

/-! ### `loadRegBlock` -/

@[simp] theorem loadRegBlock_I (s : State) (x : Nibble) : (s.loadRegBlock x).I = s.I := rfl
@[simp] theorem loadRegBlock_pc (s : State) (x : Nibble) : (s.loadRegBlock x).pc = s.pc := rfl
@[simp] theorem loadRegBlock_stack (s : State) (x : Nibble) : (s.loadRegBlock x).stack = s.stack := rfl
@[simp] theorem loadRegBlock_sp (s : State) (x : Nibble) : (s.loadRegBlock x).sp = s.sp := rfl
@[simp] theorem loadRegBlock_DT (s : State) (x : Nibble) : (s.loadRegBlock x).DT = s.DT := rfl
@[simp] theorem loadRegBlock_ST (s : State) (x : Nibble) : (s.loadRegBlock x).ST = s.ST := rfl
@[simp] theorem loadRegBlock_mem (s : State) (x : Nibble) : (s.loadRegBlock x).mem = s.mem := rfl
@[simp] theorem loadRegBlock_disp (s : State) (x : Nibble) : (s.loadRegBlock x).disp = s.disp := rfl
@[simp] theorem loadRegBlock_keys (s : State) (x : Nibble) : (s.loadRegBlock x).keys = s.keys := rfl
@[simp] theorem loadRegBlock_halt (s : State) (x : Nibble) : (s.loadRegBlock x).halt = s.halt := rfl
@[simp] theorem loadRegBlock_fault (s : State) (x : Nibble) : (s.loadRegBlock x).fault = s.fault := rfl
@[simp] theorem loadRegBlock_draws (s : State) (x : Nibble) : (s.loadRegBlock x).draws = s.draws := rfl
@[simp] theorem loadRegBlock_font (s : State) (x : Nibble) : (s.loadRegBlock x).font = s.font := rfl
@[simp] theorem readByte_loadRegBlock (s : State) (x : Nibble) (i : Nat) : (s.loadRegBlock x).readByte i = s.readByte i := rfl

/-! ### `skipIf` -/

@[simp] theorem skipIf_V (s : State) (c : Bool) : (s.skipIf c).V = s.V := by cases c <;> rfl
@[simp] theorem skipIf_I (s : State) (c : Bool) : (s.skipIf c).I = s.I := by cases c <;> rfl
theorem skipIf_pc (s : State) (c : Bool) : (s.skipIf c).pc = if c then s.pc + 2 else s.pc := by cases c <;> rfl
@[simp] theorem skipIf_stack (s : State) (c : Bool) : (s.skipIf c).stack = s.stack := by cases c <;> rfl
@[simp] theorem skipIf_sp (s : State) (c : Bool) : (s.skipIf c).sp = s.sp := by cases c <;> rfl
@[simp] theorem skipIf_DT (s : State) (c : Bool) : (s.skipIf c).DT = s.DT := by cases c <;> rfl
@[simp] theorem skipIf_ST (s : State) (c : Bool) : (s.skipIf c).ST = s.ST := by cases c <;> rfl
@[simp] theorem skipIf_mem (s : State) (c : Bool) : (s.skipIf c).mem = s.mem := by cases c <;> rfl
@[simp] theorem skipIf_disp (s : State) (c : Bool) : (s.skipIf c).disp = s.disp := by cases c <;> rfl
@[simp] theorem skipIf_keys (s : State) (c : Bool) : (s.skipIf c).keys = s.keys := by cases c <;> rfl
@[simp] theorem skipIf_halt (s : State) (c : Bool) : (s.skipIf c).halt = s.halt := by cases c <;> rfl
@[simp] theorem skipIf_fault (s : State) (c : Bool) : (s.skipIf c).fault = s.fault := by cases c <;> rfl
@[simp] theorem skipIf_draws (s : State) (c : Bool) : (s.skipIf c).draws = s.draws := by cases c <;> rfl
@[simp] theorem skipIf_font (s : State) (c : Bool) : (s.skipIf c).font = s.font := by cases c <;> rfl
@[simp] theorem reg_skipIf (s : State) (c : Bool) (y : Nibble) : (s.skipIf c).reg y = s.reg y := by cases c <;> rfl
@[simp] theorem readByte_skipIf (s : State) (c : Bool) (i : Nat) : (s.skipIf c).readByte i = s.readByte i := by
  cases c <;> rfl

/-- A skip and the advance after it: 4 past the instruction when the condition holds, else 2 (R103). -/
theorem skipIf_advance_pc (s : State) (c : Bool) : (s.skipIf c).advance.pc = s.pc + if c then 4 else 2 := by
  cases c
  · rfl
  · show s.pc + 2 + 2 = s.pc + 4
    rw [BitVec.add_assoc]; rfl

/-! ### Registers read through an update -/

/-- A register reads back the value just written (R21). -/
@[simp] theorem reg_setReg_same (s : State) (x : Nibble) (v : Byte) : (s.setReg x v).reg x = v := by
  simp [State.reg, State.setReg]

/-- Writing one register leaves every other alone (R21). -/
theorem reg_setReg_ne (s : State) {x y : Nibble} (v : Byte) (h : y ≠ x) : (s.setReg x v).reg y = s.reg y := by
  have hne : x.toNat ≠ y.toNat := fun e => h (BitVec.eq_of_toNat_eq e.symm)
  simp [State.reg, State.setReg, hne]

/-- Both cases of reading a register after writing one. -/
theorem reg_setReg (s : State) (x y : Nibble) (v : Byte) :
    (s.setReg x v).reg y = if y = x then v else s.reg y := by
  split
  · subst_vars; exact reg_setReg_same s y v
  · exact reg_setReg_ne s v ‹_›

/-- The block load (R165): V0..Vx come from memory, the registers above keep their value. -/
theorem reg_loadRegBlock (s : State) (x y : Nibble) :
    (s.loadRegBlock x).reg y = if y.toNat ≤ x.toNat then s.readByte (s.dataAddr y.toNat) else s.reg y := by
  simp [State.reg, State.loadRegBlock]

/-- Two register files that read the same everywhere are the same. -/
theorem V_ext {s t : State} (h : ∀ x, t.reg x = s.reg x) : t.V = s.V := by
  apply Vector.ext
  intro i hi
  have := h (BitVec.ofNat 4 i)
  simpa [State.reg, Nat.mod_eq_of_lt hi] using this

/-! ### Results -/

@[simp] theorem stateAfter_next (s t : State) : stateAfter s (.next t) = t := rfl
@[simp] theorem next_inj {s t : State} : ((Host.Outcome.next s : Result) = .next t) ↔ s = t := by simp
@[simp] theorem faultOn_eq (i : Instr) (c : FaultCode) (n : Option Word) (s : State) :
    faultOn i c n s = .next (s.raise c (some (encode i)) n) := rfl

/-! ### Frames -/

/-- A state keeps every part of itself. -/
theorem Part.kept_refl (s : State) (p : Part) : p.Kept s s := by cases p <;> simp [Part.Kept]

/-- A frame may be weakened by listing more parts. -/
theorem KeepsAllBut.mono {ps qs : List Part} {s t : State} (h : KeepsAllBut ps s t) (hsub : ∀ p ∈ ps, p ∈ qs) :
    KeepsAllBut qs s t := fun p hp => h p fun hin => hp (hsub p hin)

end Sys2Proof.Machine
end

