-- ==== Sys2Proof/Laws/Memory.lean ====
section
/-! SUPPORT. The memory laws: a read after a write to the same address gives the byte written, a write leaves every
other address alone, and every memory operation keeps the canonical form. -/

namespace Sys2Proof.Machine

theorem Memory.lookup_insert (a b : Nat) (v : Byte) (m : List Host.Cell) :
    Memory.lookup b (Memory.insert a v m) = if b = a then some v else Memory.lookup b m := by
  induction m with
  | nil => simp [Memory.insert, Memory.lookup, eq_comm]
  | cons c rest ih =>
    obtain ⟨d, w⟩ := c
    simp only [Memory.insert]
    by_cases h1 : a < d
    · simp [h1, Memory.lookup, eq_comm]
    · by_cases h2 : a = d
      · subst h2
        by_cases h3 : b = a <;> simp [Memory.lookup, h3, eq_comm (a := a) (b := b)]
      · rw [if_neg h1, if_neg h2, Memory.lookup, Memory.lookup, ih]
        by_cases h3 : d = b
        · simp [h3, show b ≠ a by omega]
        · simp [h3]

theorem Memory.lookup_erase (a b : Nat) (m : List Host.Cell) :
    Memory.lookup b (Memory.erase a m) = if b = a then none else Memory.lookup b m := by
  induction m with
  | nil => simp [Memory.erase, Memory.lookup]
  | cons c rest ih =>
    obtain ⟨d, w⟩ := c
    simp only [Memory.erase]
    by_cases h1 : d = a
    · subst h1
      by_cases h2 : b = d
      · simp only [h2, if_true] at ih ⊢; exact ih
      · simp [ih, h2, Memory.lookup, Ne.symm h2]
    · rw [if_neg h1, Memory.lookup, Memory.lookup, ih]
      by_cases h2 : d = b
      · simp [h2, show b ≠ a by omega]
      · simp [h2]

/-- What `MemWrite` does, as `MemRead` sees it (R51, R52): the one byte, and nothing else. -/
theorem Memory.read_write (font : Font) (m : List Host.Cell) (a b : Nat) (v : Byte) :
    Memory.read font (Memory.write font m a v) b = if b = a ∧ a ≤ 0xFFF then v else Memory.read font m b := by
  unfold Memory.write
  by_cases hle : a ≤ 0xFFF
  · by_cases hb : b = a
    · subst hb
      by_cases hv : v = Memory.baseByte font b <;>
        simp [hle, hv, Memory.read, Memory.lookup_erase, Memory.lookup_insert]
    · by_cases hv : v = Memory.baseByte font a <;>
        simp [hle, hv, hb, Memory.read, Memory.lookup_erase, Memory.lookup_insert]
  · simp [hle]

/-- A block write, as `MemRead` sees it, for a block that lies in memory. -/
theorem Memory.read_writeBlock (font : Font) (vs : List Byte) (m : List Host.Cell) (a b : Nat)
    (h : a + vs.length ≤ 0x1000) :
    Memory.read font (Memory.writeBlock font m a vs) b =
      if hb : a ≤ b ∧ b < a + vs.length then vs[b - a]'(by omega) else Memory.read font m b := by
  induction vs generalizing m a with
  | nil => simp [Memory.writeBlock]
  | cons v rest ih =>
    simp only [List.length_cons] at h
    rw [Memory.writeBlock, ih _ _ (by omega), Memory.read_write]
    by_cases h1 : b = a
    · subst h1
      simp [show b ≤ 0xFFF by omega]
    · by_cases h2 : a + 1 ≤ b ∧ b < a + 1 + rest.length
      · have h3 : a ≤ b ∧ b < a + (rest.length + 1) := by omega
        have h4 : b - a = (b - (a + 1)) + 1 := by omega
        simp [h2, h3, h4]
      · have h3 : ¬ (a ≤ b ∧ b < a + (rest.length + 1)) := by omega
        rw [dif_neg h2, if_neg (fun e => h1 e.1)]
        rw [dif_neg (by simpa using h3)]

/-- Outside the block nothing changes, wherever the block lies. -/
theorem Memory.read_writeBlock_outside (font : Font) (vs : List Byte) (m : List Host.Cell) (a b : Nat)
    (h : b < a ∨ a + vs.length ≤ b) :
    Memory.read font (Memory.writeBlock font m a vs) b = Memory.read font m b := by
  induction vs generalizing m a with
  | nil => rfl
  | cons v rest ih =>
    simp only [List.length_cons] at h
    rw [Memory.writeBlock, ih _ _ (by omega), Memory.read_write, if_neg (by omega)]

theorem Memory.mem_insert {a : Nat} {v : Byte} {m : List Host.Cell} {c : Host.Cell}
    (h : c ∈ Memory.insert a v m) : c = (a, v) ∨ c ∈ m := by
  induction m with
  | nil => simpa [Memory.insert] using h
  | cons d rest ih =>
    obtain ⟨b, w⟩ := d
    simp only [Memory.insert] at h
    split_ifs at h <;> simp only [List.mem_cons] at h ⊢
    · tauto
    · tauto
    · rcases h with h | h
      · exact .inr (.inl h)
      · exact (ih h).imp id .inr

theorem Memory.mem_erase {a : Nat} {m : List Host.Cell} {c : Host.Cell} (h : c ∈ Memory.erase a m) : c ∈ m := by
  induction m with
  | nil => exact h
  | cons d rest ih =>
    obtain ⟨b, w⟩ := d
    simp only [Memory.erase] at h
    split_ifs at h
    · exact List.mem_cons_of_mem _ (ih h)
    · rcases List.mem_cons.1 h with h | h
      · exact h ▸ List.mem_cons_self
      · exact List.mem_cons_of_mem _ (ih h)

theorem Memory.pairwise_insert (a : Nat) (v : Byte) (m : List Host.Cell)
    (h : m.Pairwise (fun p q => p.1 < q.1)) : (Memory.insert a v m).Pairwise (fun p q => p.1 < q.1) := by
  induction m with
  | nil => simp [Memory.insert]
  | cons d rest ih =>
    obtain ⟨b, w⟩ := d
    rw [List.pairwise_cons] at h
    simp only [Memory.insert]
    split_ifs with h1 h2
    · rw [List.pairwise_cons]
      refine ⟨fun c hc => ?_, List.pairwise_cons.2 h⟩
      rcases List.mem_cons.1 hc with rfl | hc
      · exact h1
      · exact h1.trans (h.1 c hc)
    · subst h2; exact List.pairwise_cons.2 h
    · rw [List.pairwise_cons]
      refine ⟨fun c hc => ?_, ih h.2⟩
      rcases Memory.mem_insert hc with rfl | hc
      · exact show b < a by omega
      · exact h.1 c hc

theorem Memory.pairwise_erase (a : Nat) (m : List Host.Cell)
    (h : m.Pairwise (fun p q => p.1 < q.1)) : (Memory.erase a m).Pairwise (fun p q => p.1 < q.1) := by
  induction m with
  | nil => simp [Memory.erase]
  | cons d rest ih =>
    obtain ⟨b, w⟩ := d
    rw [List.pairwise_cons] at h
    simp only [Memory.erase]
    split_ifs
    · exact ih h.2
    · exact List.pairwise_cons.2 ⟨fun c hc => h.1 c (Memory.mem_erase hc), ih h.2⟩

/-- `MemWrite` keeps the canonical form. -/
theorem Memory.wf_write (font : Font) (m : List Host.Cell) (a : Nat) (v : Byte) (h : Memory.wf font m) :
    Memory.wf font (Memory.write font m a v) := by
  unfold Memory.write
  split_ifs with hle hv
  · exact ⟨Memory.pairwise_erase a m h.1, fun c hc => h.2 c (Memory.mem_erase hc)⟩
  · refine ⟨Memory.pairwise_insert a v m h.1, fun c hc => ?_⟩
    rcases Memory.mem_insert hc with rfl | hc
    · exact ⟨hle, hv⟩
    · exact h.2 c hc
  · exact h

/-- A block write keeps the canonical form. -/
theorem Memory.wf_writeBlock (font : Font) (vs : List Byte) (m : List Host.Cell) (a : Nat) (h : Memory.wf font m) :
    Memory.wf font (Memory.writeBlock font m a vs) := by
  induction vs generalizing m a with
  | nil => exact h
  | cons v rest ih => exact ih _ _ (Memory.wf_write font m a v h)

/-- Memory at reset has the canonical form. -/
theorem Memory.wf_nil (font : Font) : Memory.wf font [] := ⟨.nil, by simp⟩

/-- Reading a byte after a block write that lies in memory. -/
theorem readByte_writeBytes (s : State) (a b : Nat) (vs : List Byte) (h : a + vs.length ≤ 0x1000) :
    (s.writeBytes a vs).readByte b = if hb : a ≤ b ∧ b < a + vs.length then vs[b - a]'(by omega) else s.readByte b :=
  Memory.read_writeBlock s.font vs s.mem a b h

/-- Outside the block a block write changes no byte. -/
theorem readByte_writeBytes_outside (s : State) (a b : Nat) (vs : List Byte) (h : b < a ∨ a + vs.length ≤ b) :
    (s.writeBytes a vs).readByte b = s.readByte b :=
  Memory.read_writeBlock_outside s.font vs s.mem a b h

end Sys2Proof.Machine
end

