-- ==== Sys2Proof/Laws/Ops.lean ====
section
/-! SUPPORT. One lemma per shared operation that says everything it can do: the bounds check of the block accesses, the
register block, the digits, the flags, the pixel writes. -/

namespace Sys2Proof.Machine

/-! ### Bounds (spec/20_memory.md R62) -/

/-- A block of `count` bytes at I is in bounds iff it is empty or ends at or below 0xFFF. -/
theorem blockOutOfBounds_eq_false (s : State) (count : Nat) :
    s.blockOutOfBounds count = false ↔ count = 0 ∨ s.I.toNat + count ≤ 0x1000 := by
  simp only [State.blockOutOfBounds, Bool.and_eq_false_iff, decide_eq_false_iff_not]
  omega

/-- A block is out of bounds iff it has a byte and its last byte is above 0xFFF. -/
theorem blockOutOfBounds_eq_true (s : State) (count : Nat) :
    s.blockOutOfBounds count = true ↔ 0 < count ∧ 0x1000 < s.I.toNat + count := by
  simp only [State.blockOutOfBounds, Bool.and_eq_true, decide_eq_true_eq]
  omega

/-- The reported address is `max(I, 0x1000)` (R62). -/
theorem firstBadAddr_toNat (s : State) : s.firstBadAddr.toNat = max s.I.toNat 0x1000 := by
  unfold State.firstBadAddr
  split
  · simp; omega
  · omega

/-! ### Blocks of registers and of memory -/

/-- V0..Vx are `x + 1` registers (spec/42_index_memory.md R164). -/
@[simp] theorem regBlock_length (s : State) (x : Nibble) : (s.regBlock x).length = x.toNat + 1 := by
  have := x.isLt
  simp only [State.regBlock, List.length_take, Vector.length_toList]
  omega

/-- Byte `k` of the register block is V[k]. -/
theorem regBlock_getElem (s : State) (x : Nibble) (k : Nat) (h : k < (s.regBlock x).length) :
    (s.regBlock x)[k] = s.reg (BitVec.ofNat 4 k) := by
  rw [regBlock_length] at h
  have hk : k < 16 := by have := x.isLt; omega
  simp [State.regBlock, State.reg, Nat.mod_eq_of_lt hk]

/-- A block read has as many bytes as asked for. -/
@[simp] theorem readBlock_length (s : State) (n : Nat) : (s.readBlock n).length = n := by simp [State.readBlock]

/-- Byte `k` of a block read is the byte at `I + k` (R61). -/
theorem readBlock_getElem (s : State) (n k : Nat) (h : k < (s.readBlock n).length) :
    (s.readBlock n)[k] = s.readByte (s.I.toNat + k) := by simp [State.readBlock, State.dataAddr]

/-- Three digits (R163). -/
@[simp] theorem decimalDigits_length (v : Byte) : (decimalDigits v).length = 3 := rfl

/-! ### Flags (spec/41_alu.md R131) -/

theorem flagOf_toNat (b : Bool) : (flagOf b).toNat = if b then 1 else 0 := by cases b <;> rfl

theorem carryFlag_toNat (a b : Byte) : (carryFlag a b).toNat = if a.toNat + b.toNat > 255 then 1 else 0 := by
  simp [carryFlag, flagOf_toNat]

theorem greaterFlag_toNat (a b : Byte) : (greaterFlag a b).toNat = if a.toNat > b.toNat then 1 else 0 := by
  simp [greaterFlag, flagOf_toNat]

theorem lowBitFlag_toNat (a : Byte) : (lowBitFlag a).toNat = a.toNat % 2 := by
  simp [lowBitFlag, Nat.and_one_is_mod]

theorem highBitFlag_toNat (a : Byte) : (highBitFlag a).toNat = a.toNat / 128 := by
  have := a.isLt
  simp [highBitFlag, Nat.and_one_is_mod, Nat.shiftRight_eq_div_pow]
  omega

/-! ### Pixels (spec/43_display.md R182, R184) -/

/-- Toggling one pixel inverts it and leaves every other pixel alone; rows and columns wrap. -/
theorem pixelAt_togglePixel (d : Vector (Vector Bool 64) 32) (r c r' c' : Nat) :
    pixelAt (togglePixel d r c) r' c' =
      if r' % 32 = r % 32 ∧ c' % 64 = c % 64 then !pixelAt d r c else pixelAt d r' c' := by
  unfold pixelAt togglePixel
  by_cases hr : r % 32 = r' % 32
  · by_cases hc : c % 64 = c' % 64
    · simp [hr, hc, pixelAt]
    · simp [hr, hc, Ne.symm hc, pixelAt]
  · simp [hr, Ne.symm hr]

/-- A pixel is addressed modulo the screen (R184). -/
theorem pixelAt_mod (d : Vector (Vector Bool 64) 32) (r c : Nat) : pixelAt d (r % 32) (c % 64) = pixelAt d r c := by
  simp [pixelAt]

/-- Two displays with the same pixels are the same. -/
theorem display_ext {d e : Vector (Vector Bool 64) 32}
    (h : ∀ r c, r < 32 → c < 64 → pixelAt d r c = pixelAt e r c) : d = e := by
  apply Vector.ext
  intro r hr
  apply Vector.ext
  intro c hc
  have := h r c hr hc
  simpa [pixelAt, Nat.mod_eq_of_lt hr, Nat.mod_eq_of_lt hc] using this

/-- What one sprite bit does to a pixel and to the collision mark (R182). -/
theorem blitBit_spec (r c : Nat) (bit : Bool) (cv : Canvas) (r' c' : Nat) :
    pixelAt (blitBit r c bit cv).disp r' c' =
      (pixelAt cv.disp r' c' ^^ (bit && decide (r' % 32 = r % 32 ∧ c' % 64 = c % 64))) ∧
    (blitBit r c bit cv).collided = (cv.collided || (bit && pixelAt cv.disp r c)) := by
  cases bit
  · simp [blitBit]
  · simp only [blitBit, if_true, pixelAt_togglePixel, Bool.true_and, and_true]
    split
    · rename_i h
      have : pixelAt cv.disp r' c' = pixelAt cv.disp r c := by
        rw [← pixelAt_mod, h.1, h.2, pixelAt_mod]
      simp [h, this]
    · rename_i h
      simp [h]

/-! ### Faults -/

/-- Taking a fault changes the fault record and nothing else (spec/60_exceptions.md R222). -/
theorem raise_spec (s : State) (c : FaultCode) (o n : Option Word) :
    s.raise c o n = { s with fault := some ⟨c, s.pc, o, n⟩ } := rfl

end Sys2Proof.Machine
end

