-- ==== Sys2Proof/Laws/Cycle.lean ====
section
/-! SUPPORT. What the fetch and the cycle can do, said once (spec/20_memory.md R57, spec/40_control_flow.md R100, R101). -/

namespace Sys2Proof.Machine

/-- A fetch answers the bounds fault, the alignment fault or the opcode at pc, in that order (R57). -/
theorem fetch_cases (s : State) :
    (s.pc.toNat > 0xFFE ∧ fetch s = .error .fetchOutOfBounds) ∨
    (s.pc.toNat ≤ 0xFFE ∧ s.pc.toNat % 2 = 1 ∧ fetch s = .error .fetchMisaligned) ∨
    (Fetchable s.pc ∧ fetch s = .ok (opcodeOfBytes (s.readByte s.pc.toNat) (s.readByte (s.pc.toNat + 1)))) := by
  unfold fetch Fetchable
  by_cases h1 : s.pc.toNat > 0xFFE
  · exact .inl ⟨h1, if_pos h1⟩
  · by_cases h2 : s.pc.toNat % 2 = 1
    · exact .inr (.inl ⟨by omega, h2, by simp [h1, h2]⟩)
    · exact .inr (.inr ⟨⟨by omega, by omega⟩, by simp [h1, h2]⟩)

/-- `execute` does nothing, records ILLEGAL_OPCODE, or runs the decoded instruction (R101). -/
theorem executeOp_cases (op : Word) (s : State) :
    (¬s.Running ∧ executeOp op s = .next s) ∨
    (s.Running ∧ (∃ e, decode op = .error e) ∧ executeOp op s = .next (s.raise .illegalOpcode (some op) none)) ∨
    (s.Running ∧ ∃ i, decode op = .ok i ∧ executeOp op s = exec i s) := by
  unfold executeOp State.Running
  cases hf : s.fault with
  | some f => simp
  | none =>
    by_cases hh : s.halt = .notHalted
    · cases hd : decode op <;> simp [hh]
    · simp [hh]

/-- A step does nothing, records a fetch fault, or is `execute` of the opcode at pc (R100). -/
theorem stepCycle_cases (s : State) :
    (¬s.Running ∧ stepCycle s = .next s) ∨
    (s.Running ∧ ∃ c, fetch s = .error c ∧ stepCycle s = .next (s.raise c none none)) ∨
    (s.Running ∧ ∃ op, fetch s = .ok op ∧ stepCycle s = executeOp op s) := by
  unfold stepCycle State.Running
  cases hf : s.fault with
  | some f => simp
  | none =>
    by_cases hh : s.halt = .notHalted
    · cases hd : fetch s <;> simp [hh]
    · simp [hh]

end Sys2Proof.Machine
end

