-- ==== Sys2Proof/Laws/Encoding.lean ====
section
/-! SUPPORT. The fields of a word built from its fields (spec/30_encoding.md R70, R71), and a word from its fields: what
a proof about `decode` and `encode` rewrites with. -/

namespace Sys2Proof

@[simp] theorem opFamily_wordXYN (f x y n : Nibble) : opFamily (wordXYN f x y n) = f := by
  apply BitVec.eq_of_getLsbD_eq
  intro i hi
  simp only [opFamily, wordXYN, BitVec.getLsbD_extractLsb', BitVec.getLsbD_append]
  simp [hi, show ¬ (12 + i < 4) by omega, show ¬ (12 + i - 4 < 4) by omega, show ¬ (12 + i - 4 - 4 < 4) by omega,
    show 12 + i - 4 - 4 - 4 = i by omega]

@[simp] theorem opX_wordXYN (f x y n : Nibble) : opX (wordXYN f x y n) = x := by
  apply BitVec.eq_of_getLsbD_eq
  intro i hi
  simp only [opX, wordXYN, BitVec.getLsbD_extractLsb', BitVec.getLsbD_append]
  simp [hi, show ¬ (8 + i < 4) by omega, show ¬ (8 + i - 4 < 4) by omega, show 8 + i - 4 - 4 = i by omega]

@[simp] theorem opY_wordXYN (f x y n : Nibble) : opY (wordXYN f x y n) = y := by
  apply BitVec.eq_of_getLsbD_eq
  intro i hi
  simp only [opY, wordXYN, BitVec.getLsbD_extractLsb', BitVec.getLsbD_append]
  simp [hi, show ¬ (4 + i < 4) by omega]

@[simp] theorem opN_wordXYN (f x y n : Nibble) : opN (wordXYN f x y n) = n := by
  apply BitVec.eq_of_getLsbD_eq
  intro i hi
  simp only [opN, wordXYN, BitVec.getLsbD_extractLsb', BitVec.getLsbD_append]
  simp [hi]

@[simp] theorem opKK_wordXYN (f x y n : Nibble) : opKK (wordXYN f x y n) = y ++ n := by
  apply BitVec.eq_of_getLsbD_eq
  intro i hi
  simp only [opKK, wordXYN, BitVec.getLsbD_extractLsb', BitVec.getLsbD_append]
  by_cases h : i < 4
  · simp [hi, h]
  · simp [hi, h, show i - 4 < 4 by omega]

@[simp] theorem opFamily_wordXKK (f x : Nibble) (kk : Byte) : opFamily (wordXKK f x kk) = f := by
  apply BitVec.eq_of_getLsbD_eq
  intro i hi
  simp only [opFamily, wordXKK, BitVec.getLsbD_extractLsb', BitVec.getLsbD_append]
  simp [hi, show ¬ (12 + i < 8) by omega, show ¬ (12 + i - 8 < 4) by omega, show 12 + i - 8 - 4 = i by omega]

@[simp] theorem opX_wordXKK (f x : Nibble) (kk : Byte) : opX (wordXKK f x kk) = x := by
  apply BitVec.eq_of_getLsbD_eq
  intro i hi
  simp only [opX, wordXKK, BitVec.getLsbD_extractLsb', BitVec.getLsbD_append]
  simp [hi, show ¬ (8 + i < 8) by omega]

@[simp] theorem opKK_wordXKK (f x : Nibble) (kk : Byte) : opKK (wordXKK f x kk) = kk := by
  apply BitVec.eq_of_getLsbD_eq
  intro i hi
  simp only [opKK, wordXKK, BitVec.getLsbD_extractLsb', BitVec.getLsbD_append]
  simp [hi]

@[simp] theorem opFamily_wordNNN (f : Nibble) (nnn : Addr) : opFamily (wordNNN f nnn) = f := by
  apply BitVec.eq_of_getLsbD_eq
  intro i hi
  simp only [opFamily, wordNNN, BitVec.getLsbD_extractLsb', BitVec.getLsbD_append]
  simp [hi, show ¬ (12 + i < 12) by omega]

@[simp] theorem opNNN_wordNNN (f : Nibble) (nnn : Addr) : opNNN (wordNNN f nnn) = nnn := by
  apply BitVec.eq_of_getLsbD_eq
  intro i hi
  simp only [opNNN, wordNNN, BitVec.getLsbD_extractLsb', BitVec.getLsbD_append]
  simp [hi]

/-- Every opcode is its four nibbles (R70). -/
theorem wordXYN_fields (op : Word) : wordXYN (opFamily op) (opX op) (opY op) (opN op) = op := by
  apply BitVec.eq_of_getLsbD_eq
  intro i hi
  simp only [wordXYN, opFamily, opX, opY, opN, BitVec.getLsbD_extractLsb', BitVec.getLsbD_append]
  by_cases h1 : i < 4
  · simp [h1]
  · by_cases h2 : i - 4 < 4
    · simp [h1, h2, show 4 + (i - 4) = i by omega]
    · by_cases h3 : i - 4 - 4 < 4
      · simp [h1, h2, h3, show 8 + (i - 4 - 4) = i by omega]
      · simp [h1, h2, h3, show i - 4 - 4 - 4 < 4 by omega, show 12 + (i - 4 - 4 - 4) = i by omega]

/-- Every opcode is its family, x and kk (R70). -/
theorem wordXKK_fields (op : Word) : wordXKK (opFamily op) (opX op) (opKK op) = op := by
  apply BitVec.eq_of_getLsbD_eq
  intro i hi
  simp only [wordXKK, opFamily, opX, opKK, BitVec.getLsbD_extractLsb', BitVec.getLsbD_append]
  by_cases h1 : i < 8
  · simp [h1]
  · by_cases h2 : i - 8 < 4
    · simp [h1, h2, show 8 + (i - 8) = i by omega]
    · simp [h1, h2, show i - 8 - 4 < 4 by omega, show 12 + (i - 8 - 4) = i by omega]

/-- Every opcode is its family and nnn (R70). -/
theorem wordNNN_fields (op : Word) : wordNNN (opFamily op) (opNNN op) = op := by
  apply BitVec.eq_of_getLsbD_eq
  intro i hi
  simp only [wordNNN, opFamily, opNNN, BitVec.getLsbD_extractLsb', BitVec.getLsbD_append]
  by_cases h1 : i < 12
  · simp [h1]
  · simp [h1, show i - 12 < 4 by omega, show 12 + (i - 12) = i by omega]

/-- The low byte is the two low nibbles (R71). -/
theorem opKK_eq (op : Word) : opKK op = opY op ++ opN op := by
  rw [← wordXYN_fields op]; simp

/-- An opcode survives being laid out as two bytes, high byte first (R70). -/
@[simp] theorem opcodeOfBytes_bytes (op : Word) :
    opcodeOfBytes (op.extractLsb' 8 8) (op.extractLsb' 0 8) = op := by
  apply BitVec.eq_of_getLsbD_eq
  intro i hi
  simp only [opcodeOfBytes, BitVec.getLsbD_extractLsb', BitVec.getLsbD_append]
  by_cases h : i < 8
  · simp [h]
  · simp [h, show i - 8 < 8 by omega, show 8 + (i - 8) = i by omega]

/-- The high byte of an opcode made of two bytes (R70). -/
@[simp] theorem high_opcodeOfBytes (hi lo : Byte) : (opcodeOfBytes hi lo).extractLsb' 8 8 = hi := by
  apply BitVec.eq_of_getLsbD_eq
  intro i h
  simp only [opcodeOfBytes, BitVec.getLsbD_extractLsb', BitVec.getLsbD_append]
  simp [h, show ¬ (8 + i < 8) by omega]

/-- The low byte of an opcode made of two bytes (R70). -/
@[simp] theorem low_opcodeOfBytes (hi lo : Byte) : (opcodeOfBytes hi lo).extractLsb' 0 8 = lo := by
  apply BitVec.eq_of_getLsbD_eq
  intro i h
  simp only [opcodeOfBytes, BitVec.getLsbD_extractLsb', BitVec.getLsbD_append]
  simp [h]

end Sys2Proof
end

