-- ==== Sys2Proof/Laws/Host.lean ====
section
/-! SUPPORT. What the host operations' parts do (spec/60_exceptions.md R230, R233, R234). -/

namespace Sys2Proof.Machine

/-- A press sets the key's bit and no other (R233). -/
theorem getLsbD_pressKey (keys : BitVec 16) (k j : Nat) (hk : k ≤ 0xF) :
    (pressKey keys k).getLsbD j = (keys.getLsbD j || decide (j = k)) := by
  by_cases hj : j < 16
  · interval_cases k <;> interval_cases j <;> simp [pressKey]
  · simp [pressKey, hj, show j ≠ k by omega, BitVec.getLsbD_of_ge keys j (by omega)]

/-- A release clears the key's bit and no other (R233). -/
theorem getLsbD_releaseKey (keys : BitVec 16) (k j : Nat) (hk : k ≤ 0xF) :
    (releaseKey keys k).getLsbD j = (keys.getLsbD j && !decide (j = k)) := by
  by_cases hj : j < 16
  · interval_cases k <;> interval_cases j <;> simp [releaseKey]
  · simp [releaseKey, hj, BitVec.getLsbD_of_ge keys j (by omega)]

/-- A tick takes a timer down by one, floored at 0 (R230). -/
theorem tickTimer_toNat (t : Byte) : (tickTimer t).toNat = t.toNat - 1 := by
  revert t; decide

/-- A key above 0xF is never held: `keys` has 16 bits (spec/44_timers_keys.md R200). -/
theorem keyHeld_of_gt (s : State) (v : Byte) (h : v.toNat > 0xF) : s.keyHeld v = false :=
  BitVec.getLsbD_of_ge _ _ (by omega)

/-- A run is its first operation and then the rest (R235). -/
theorem runOps_cons (o : HostOp) (os : List HostOp) (s : State) :
    (runOps (o :: os) s).1 = (runOps os (applyOp o s).1).1 := rfl

/-- A property that every operation of a run keeps holds after the run. -/
theorem runOps_induction {P : State → Prop} {ok : HostOp → Prop}
    (step : ∀ o s, ok o → P s → P (applyOp o s).1) (ops : List HostOp) (s : State) (hok : ∀ o ∈ ops, ok o)
    (h : P s) : P (runOps ops s).1 := by
  induction ops generalizing s with
  | nil => exact h
  | cons o os ih =>
    rw [runOps_cons]
    exact ih _ (fun p hp => hok p (List.mem_cons_of_mem _ hp)) (step o s (hok o List.mem_cons_self) h)

end Sys2Proof.Machine
end

