-- ==== Sys2Proof/Laws/PerInstr.lean ====
section
/-! SUPPORT. The per-instruction family FamilyNibble: the top nibble of an instruction's encoding is the family
spec/30_encoding.md R82 gives it (R74), one lemma per constructor. -/

namespace Sys2Proof

/-- The family of an instruction: the first digit of its pattern in R82. -/
def Instr.familyNibble : Instr → Nibble
  | .sys _ => 0x0#4
  | .cls => 0x0#4
  | .ret => 0x0#4
  | .jp _ => 0x1#4
  | .call _ => 0x2#4
  | .seImm _ _ => 0x3#4
  | .sneImm _ _ => 0x4#4
  | .seReg _ _ _ => 0x5#4
  | .ldImm _ _ => 0x6#4
  | .addImm _ _ => 0x7#4
  | .ldReg _ _ => 0x8#4
  | .orReg _ _ => 0x8#4
  | .andReg _ _ => 0x8#4
  | .xorReg _ _ => 0x8#4
  | .addReg _ _ => 0x8#4
  | .subReg _ _ => 0x8#4
  | .shr _ _ => 0x8#4
  | .subnReg _ _ => 0x8#4
  | .shl _ _ => 0x8#4
  | .sneReg _ _ _ => 0x9#4
  | .ldI _ => 0xA#4
  | .jpV0 _ => 0xB#4
  | .rnd _ _ => 0xC#4
  | .drw _ _ _ => 0xD#4
  | .skp _ _ => 0xE#4
  | .sknp _ _ => 0xE#4
  | .ldVxDT _ _ => 0xF#4
  | .ldKey _ _ => 0xF#4
  | .ldDT _ => 0xF#4
  | .ldST _ _ => 0xF#4
  | .addI _ _ => 0xF#4
  | .ldF _ _ => 0xF#4
  | .ldB _ _ => 0xF#4
  | .storeRegs _ => 0xF#4
  | .loadRegs _ => 0xF#4

namespace Laws.FamilyNibble

/-- The encoding's top nibble is the instruction's family. -/
def Statement (i : Instr) : Prop := opFamily (encode i) = i.familyNibble

theorem sys (nnn : Addr) : Statement (Instr.sys nnn) := opFamily_wordNNN _ _
theorem cls : Statement Instr.cls := by unfold Statement; decide
theorem ret : Statement Instr.ret := by unfold Statement; decide
theorem jp (nnn : Addr) : Statement (Instr.jp nnn) := opFamily_wordNNN _ _
theorem call (nnn : Addr) : Statement (Instr.call nnn) := opFamily_wordNNN _ _
theorem seImm (x : Nibble) (kk : Byte) : Statement (Instr.seImm x kk) := opFamily_wordXKK _ _ _
theorem sneImm (x : Nibble) (kk : Byte) : Statement (Instr.sneImm x kk) := opFamily_wordXKK _ _ _
theorem seReg (x y n : Nibble) : Statement (Instr.seReg x y n) := opFamily_wordXYN _ _ _ _
theorem ldImm (x : Nibble) (kk : Byte) : Statement (Instr.ldImm x kk) := opFamily_wordXKK _ _ _
theorem addImm (x : Nibble) (kk : Byte) : Statement (Instr.addImm x kk) := opFamily_wordXKK _ _ _
theorem ldReg (x y : Nibble) : Statement (Instr.ldReg x y) := opFamily_wordXYN _ _ _ _
theorem orReg (x y : Nibble) : Statement (Instr.orReg x y) := opFamily_wordXYN _ _ _ _
theorem andReg (x y : Nibble) : Statement (Instr.andReg x y) := opFamily_wordXYN _ _ _ _
theorem xorReg (x y : Nibble) : Statement (Instr.xorReg x y) := opFamily_wordXYN _ _ _ _
theorem addReg (x y : Nibble) : Statement (Instr.addReg x y) := opFamily_wordXYN _ _ _ _
theorem subReg (x y : Nibble) : Statement (Instr.subReg x y) := opFamily_wordXYN _ _ _ _
theorem shr (x y : Nibble) : Statement (Instr.shr x y) := opFamily_wordXYN _ _ _ _
theorem subnReg (x y : Nibble) : Statement (Instr.subnReg x y) := opFamily_wordXYN _ _ _ _
theorem shl (x y : Nibble) : Statement (Instr.shl x y) := opFamily_wordXYN _ _ _ _
theorem sneReg (x y n : Nibble) : Statement (Instr.sneReg x y n) := opFamily_wordXYN _ _ _ _
theorem ldI (nnn : Addr) : Statement (Instr.ldI nnn) := opFamily_wordNNN _ _
theorem jpV0 (nnn : Addr) : Statement (Instr.jpV0 nnn) := opFamily_wordNNN _ _
theorem rnd (x : Nibble) (kk : Byte) : Statement (Instr.rnd x kk) := opFamily_wordXKK _ _ _
theorem drw (x y n : Nibble) : Statement (Instr.drw x y n) := opFamily_wordXYN _ _ _ _
theorem skp (x y : Nibble) : Statement (Instr.skp x y) := opFamily_wordXYN _ _ _ _
theorem sknp (x y : Nibble) : Statement (Instr.sknp x y) := opFamily_wordXYN _ _ _ _
theorem ldVxDT (x y : Nibble) : Statement (Instr.ldVxDT x y) := opFamily_wordXYN _ _ _ _
theorem ldKey (x y : Nibble) : Statement (Instr.ldKey x y) := opFamily_wordXYN _ _ _ _
theorem ldDT (x : Nibble) : Statement (Instr.ldDT x) := opFamily_wordXKK _ _ _
theorem ldST (x y : Nibble) : Statement (Instr.ldST x y) := opFamily_wordXYN _ _ _ _
theorem addI (x y : Nibble) : Statement (Instr.addI x y) := opFamily_wordXYN _ _ _ _
theorem ldF (x y : Nibble) : Statement (Instr.ldF x y) := opFamily_wordXYN _ _ _ _
theorem ldB (x y : Nibble) : Statement (Instr.ldB x y) := opFamily_wordXYN _ _ _ _
theorem storeRegs (x : Nibble) : Statement (Instr.storeRegs x) := opFamily_wordXKK _ _ _
theorem loadRegs (x : Nibble) : Statement (Instr.loadRegs x) := opFamily_wordXKK _ _ _

end Laws.FamilyNibble

end Sys2Proof
end

