-- ==== Sys2Proof/Tests/Slice0.lean ====
section
/-! SUPPORT. Tests: expected results are the worked examples and vectors of spec/95_test_vectors.md and the Example lines
of the rules, each named beside its test. Then a witness for the hypotheses of every statement that has some. -/

namespace Sys2Proof.Tests

open Sys2Proof.Machine

/-! ### WellFormed: the ill-formed terms are refused -/

/-- R75: 0x00E0 is CLS, never SYS. -/
theorem test_wf_refuses_sys_0E0 : Instr.wf (.sys 0x0E0) = false := by decide
/-- R75: 0x00EE is RET, never SYS. -/
theorem test_wf_refuses_sys_0EE : Instr.wf (.sys 0x0EE) = false := by decide
/-- R104: "0x00E1 and 0x00EF are SYS". -/
theorem test_wf_takes_sys_neighbours : Instr.wf (.sys 0x0E1) = true ∧ Instr.wf (.sys 0x0EF) = true := by decide

/-! ### Decoding: one word for every constructor, written out from the patterns of R82 -/

/-- Family 0: 0000 nnnn nnnn nnnn, and the two exact words. -/
theorem test_decode_family0 : decode 0b0000_0000_1110_0001 = .ok (.sys 0x0E1) ∧
    decode 0b0000_0000_1110_0000 = .ok .cls ∧ decode 0b0000_0000_1110_1110 = .ok .ret := by decide
/-- Families 1 to 4. -/
theorem test_decode_families1to4 : decode 0b0001_1010_1011_1100 = .ok (.jp 0xABC) ∧
    decode 0b0010_1010_1011_1100 = .ok (.call 0xABC) ∧ decode 0b0011_1010_0001_0010 = .ok (.seImm 0xA 0x12) ∧
    decode 0b0100_1010_0001_0010 = .ok (.sneImm 0xA 0x12) := by decide
/-- Families 5 to 7 and 9; the low nibble of 5 and 9 is free (R84). -/
theorem test_decode_families5to9 : decode 0b0101_0001_0010_0000 = .ok (.seReg 1 2 0) ∧
    decode 0b0101_0001_0010_0111 = .ok (.seReg 1 2 7) ∧ decode 0b0110_1010_0001_0010 = .ok (.ldImm 0xA 0x12) ∧
    decode 0b0111_1010_0001_0010 = .ok (.addImm 0xA 0x12) ∧ decode 0b1001_0001_0010_1111 = .ok (.sneReg 1 2 0xF) := by
  decide
/-- Family 8: 1000 xxxx yyyy and the selector. -/
theorem test_decode_family8 : decode 0b1000_0001_0010_0000 = .ok (.ldReg 1 2) ∧
    decode 0b1000_0001_0010_0001 = .ok (.orReg 1 2) ∧ decode 0b1000_0001_0010_0010 = .ok (.andReg 1 2) ∧
    decode 0b1000_0001_0010_0011 = .ok (.xorReg 1 2) ∧ decode 0b1000_0001_0010_0100 = .ok (.addReg 1 2) ∧
    decode 0b1000_0001_0010_0101 = .ok (.subReg 1 2) ∧ decode 0b1000_0001_0010_0110 = .ok (.shr 1 2) ∧
    decode 0b1000_0001_0010_0111 = .ok (.subnReg 1 2) ∧ decode 0b1000_0001_0010_1110 = .ok (.shl 1 2) := by decide
/-- Families A to D. -/
theorem test_decode_familiesAtoD : decode 0b1010_0010_0010_1010 = .ok (.ldI 0x22A) ∧
    decode 0b1011_0001_0010_0011 = .ok (.jpV0 0x123) ∧ decode 0b1100_0001_1111_1111 = .ok (.rnd 1 0xFF) ∧
    decode 0b1101_0001_0010_0101 = .ok (.drw 1 2 5) := by decide
/-- Family E, canonical and alias (T-E). -/
theorem test_decode_familyE : decode 0b1110_0001_1001_1110 = .ok (.skp 1 9) ∧
    decode 0b1110_0001_0000_1110 = .ok (.skp 1 0) ∧ decode 0b1110_0001_1010_0001 = .ok (.sknp 1 0xA) := by decide
/-- Family F. -/
theorem test_decode_familyF : decode 0b1111_0001_0000_0111 = .ok (.ldVxDT 1 0) ∧
    decode 0b1111_0001_0000_1010 = .ok (.ldKey 1 0) ∧ decode 0b1111_0001_0001_0101 = .ok (.ldDT 1) ∧
    decode 0b1111_0001_0001_1000 = .ok (.ldST 1 1) ∧ decode 0b1111_0001_0001_1110 = .ok (.addI 1 1) ∧
    decode 0b1111_0001_0010_1001 = .ok (.ldF 1 2) ∧ decode 0b1111_0001_0011_0011 = .ok (.ldB 1 3) ∧
    decode 0b1111_0001_0101_0101 = .ok (.storeRegs 1) ∧ decode 0b1111_0001_0110_0101 = .ok (.loadRegs 1) := by decide
/-- T-E: unrecognized words. -/
theorem test_decode_unrecognized : decode 0x8128 = .error (.unrecognized 0x8128) ∧
    decode 0xE19F = .error (.unrecognized 0xE19F) ∧ decode 0xF025 = .error (.unrecognized 0xF025) ∧
    decode 0xF090 = .error (.unrecognized 0xF090) ∧ decode 0xF1FF = .error (.unrecognized 0xF1FF) := by decide
/-- R70: high byte first; R81: two bytes. -/
theorem test_decodeBytes : decodeBytes [0xA2, 0x2A, 0x55] = .ok (.ldI 0x22A, [0x55]) ∧
    decodeBytes [0xA2] = .error .truncated ∧ decodeTableWord 16 0x8125 = some (.subReg 1 2) := by decide

/-! ### One step on a small state -/

/-- The state after one step on the opcode `op`, stored at pc. -/
def after (op : Nat) (s : State) : State := stateAfter s (step (s.withFetchWord 16 op))

/-- The reset state with some registers set. -/
def withV (l : List (Nibble × Byte)) : State := l.foldl (fun s p => s.setReg p.1 p.2) State.reset

/-- `s` with the bytes `bs` at address `a`. -/
def poke (a : Nat) (bs : List Byte) (s : State) : State := s.writeBytes a bs

/-- R104 Example. -/
theorem test_sys : (after 0x0345 .reset).pc = 0x345 := by decide
/-- T-C8: SYS 0x000, then the first font bytes are ILLEGAL_OPCODE. -/
theorem test_sys_then_font : (stateAfter .reset (step (after 0x0000 .reset))).fault =
    some ⟨.illegalOpcode, 0x000, some 0xF090, none⟩ := by decide
/-- R106 Example, T-C1. -/
theorem test_jp : (after 0x1204 .reset).pc = 0x204 := by decide
/-- T-C2: an odd target faults at the next fetch. -/
theorem test_jp_odd : (stateAfter .reset (step (after 0x1201 .reset))).fault =
    some ⟨.fetchMisaligned, 0x201, none, none⟩ := by decide
/-- T-C3. -/
theorem test_call : let t := after 0x2300 .reset
    (t.sp, t.stack[1], t.stack[0], t.pc) = (1, 0x200, 0, 0x300) := by decide
/-- T-C17. -/
theorem test_call_overflow : let t := after 0x2400 { State.reset with sp := 15 }
    (t.fault, t.sp, t.pc) = (some ⟨.stackOverflow, 0x200, some 0x2400, none⟩, 15, 0x200) := by decide
/-- R105 Example. -/
theorem test_ret : let t := after 0x00EE { State.reset with sp := 1, stack := State.reset.stack.set 1 0x204 }
    (t.pc, t.sp, t.stack[1]) = (0x206, 0, 0x204) := by decide
/-- T-C16. -/
theorem test_ret_underflow : (after 0x00EE .reset).fault = some ⟨.stackUnderflow, 0x200, some 0x00EE, none⟩ := by decide
/-- T-C5, T-C6. -/
theorem test_seImm : (after 0x3112 (withV [(1, 0x12)])).pc = 0x204 ∧ (after 0x3113 (withV [(1, 0x12)])).pc = 0x202 := by
  decide
/-- T-C7. -/
theorem test_sneImm : (after 0x4112 (withV [(1, 0x12)])).pc = 0x202 ∧ (after 0x4113 (withV [(1, 0x12)])).pc = 0x204 := by
  decide
/-- T-C9, T-C10. -/
theorem test_seReg : (after 0x5127 (withV [(1, 0x33), (2, 0x33)])).pc = 0x204 ∧
    (after 0x5120 (withV [(1, 0x33), (2, 0x34)])).pc = 0x202 := by decide
/-- T-C10, T-C11. -/
theorem test_sneReg : (after 0x9125 (withV [(1, 0x33), (2, 0x34)])).pc = 0x204 ∧
    (after 0x9330 (withV [(3, 0x10)])).pc = 0x202 := by decide
/-- T-C13: V0 is the offset, not VE. -/
theorem test_jpV0 : (after 0xBE00 (withV [(0, 0x05), (0xE, 0x40)])).pc = 0xE05 := by decide
/-- T-C14: no wrap at 12 bits. -/
theorem test_jpV0_top : (after 0xBFFF (withV [(0, 0xFF)])).pc = 0x10FE := by decide
/-- R132 Example; T-A1. -/
theorem test_ldImm : (after 0x6A2B .reset).reg 0xA = 0x2B ∧ (after 0x6FAA .reset).reg 0xF = 0xAA := by decide
/-- T-A3: no carry. -/
theorem test_addImm : let t := after 0x7101 (withV [(1, 0xFF)]); (t.reg 1, t.reg 0xF) = (0x00, 0x00) := by decide
/-- T-A5. -/
theorem test_ldReg : (after 0x8120 (withV [(2, 0x99)])).reg 1 = 0x99 := by decide
/-- T-A6: VF is not reset. -/
theorem test_orReg : let t := after 0x8121 (withV [(1, 0x0F), (2, 0xF0), (0xF, 0x77)])
    (t.reg 1, t.reg 0xF) = (0xFF, 0x77) := by decide
/-- T-A7. -/
theorem test_andReg : let t := after 0x8122 (withV [(1, 0x3C), (2, 0x0F), (0xF, 0x77)])
    (t.reg 1, t.reg 0xF) = (0x0C, 0x77) := by decide
/-- R137 Example. -/
theorem test_xorReg : (after 0x8123 (withV [(1, 0xFF), (2, 0x0F)])).reg 1 = 0xF0 := by decide
/-- E1: 0xFF + 0xFF. -/
theorem test_addReg : let t := after 0x8124 (withV [(1, 0xFF), (2, 0xFF)]); (t.reg 1, t.reg 0xF) = (0xFE, 1) := by
  decide
/-- T-A23 (the carry is lost), T-A25 (y = F adds the old VF). -/
theorem test_addReg_vf : (after 0x8F14 (withV [(0xF, 0x10), (1, 0xF5)])).reg 0xF = 0x05 ∧
    (let t := after 0x81F4 (withV [(1, 0xFF), (0xF, 0x01)]); (t.reg 1, t.reg 0xF) = (0x00, 1)) := by decide
/-- E2: equal operands give VF = 0; a borrow. -/
theorem test_subReg : (let t := after 0x8125 (withV [(1, 5), (2, 5)]); (t.reg 1, t.reg 0xF) = (0x00, 0)) ∧
    (let t := after 0x8125 (withV [(1, 3), (2, 5)]); (t.reg 1, t.reg 0xF) = (0xFE, 0)) := by decide
/-- T-A26, T-A27. -/
theorem test_subReg_vf : (after 0x8F15 (withV [(0xF, 0x10), (1, 5)])).reg 0xF = 0xFC ∧
    (let t := after 0x81F5 (withV [(1, 5), (0xF, 3)]); (t.reg 1, t.reg 0xF) = (0x04, 1)) := by decide
/-- E3; T-A15 (V2 is not read). -/
theorem test_shr : (let t := after 0x8106 (withV [(1, 1)]); (t.reg 1, t.reg 0xF, t.pc) = (0, 1, 0x202)) ∧
    (after 0x8126 (withV [(1, 2), (2, 0xFF)])).reg 1 = 0x01 := by decide
/-- T-A12, T-A13. -/
theorem test_subnReg : (let t := after 0x8127 (withV [(1, 5), (2, 3)]); (t.reg 1, t.reg 0xF) = (0xFE, 0)) ∧
    (let t := after 0x8127 (withV [(2, 0xFF)]); (t.reg 1, t.reg 0xF) = (0xFF, 1)) := by decide
/-- T-A29, T-A30. -/
theorem test_subnReg_vf : (after 0x8F17 (withV [(0xF, 2), (1, 5)])).reg 0xF = 0x04 ∧
    (let t := after 0x81F7 (withV [(1, 2), (0xF, 5)]); (t.reg 1, t.reg 0xF) = (0xFF, 1)) := by decide
/-- T-A17, T-A19. -/
theorem test_shl : (let t := after 0x810E (withV [(1, 0x80)]); (t.reg 1, t.reg 0xF) = (0, 1)) ∧
    (let t := after 0x812E (withV [(1, 0xFF), (2, 1)]); (t.reg 1, t.reg 0xF) = (0xFE, 1)) := by decide
/-- T-A31, T-A32, T-A33. -/
theorem test_shift_vf : (after 0x8F06 (withV [(0xF, 3)])).reg 0xF = 0 ∧ (after 0x8F0E (withV [(0xF, 0x80)])).reg 0xF = 2 ∧
    (after 0x8F0E (withV [(0xF, 0x7F)])).reg 0xF = 0 := by decide
/-- T-A22: a mask of FF keeps the draw, whatever it is. -/
theorem test_rnd : (after 0xC5FF .reset).reg 5 = Config.randomByte 0 &&& 0xFF := by rfl
/-- T-A21: any draw AND 0 is 0. -/
theorem test_rnd_zero_mask : (after 0xC500 .reset).reg 5 = 0x00 := by
  have h : (after 0xC500 .reset).reg 5 = Config.randomByte 0 &&& 0x00 := by rfl
  exact h.trans (by simp)
/-- E5. -/
theorem test_ldI : let t := after 0xA22A .reset; (t.I, t.pc) = (0x22A, 0x202) := by decide
/-- T-M3, T-M4. -/
theorem test_addI : (after 0xF11E { withV [(1, 1)] with I := 0x0FFF }).I = 0x1000 ∧
    (after 0xF11E { withV [(1, 1)] with I := 0xFFFF }).I = 0x0000 := by decide
/-- T-M6. -/
theorem test_ldF : (after 0xF129 (withV [(1, 0x0A)])).I = 0x032 ∧ (after 0xF129 (withV [(1, 0x0F)])).I = 0x04B := by
  decide
/-- T-M7, and the same through an alias encoding: the record holds the opcode as executed (R222). -/
theorem test_ldF_fault : (after 0xF129 (withV [(1, 0x10)])).fault = some ⟨.glyphOutOfRange, 0x200, some 0xF129, some 0x10⟩ ∧
    (after 0xF1E9 (withV [(1, 0x10)])).fault = some ⟨.glyphOutOfRange, 0x200, some 0xF1E9, some 0x10⟩ := by decide
/-- T-M9: the last three bytes. -/
theorem test_ldB : let t := after 0xF133 { withV [(1, 123)] with I := 0xFFD }
    (t.readByte 0xFFD, t.readByte 0xFFE, t.readByte 0xFFF) = (1, 2, 3) := by decide
/-- T-M10. -/
theorem test_ldB_fault : let t := after 0xF133 { withV [(1, 123)] with I := 0xFFE }
    (t.fault, t.readByte 0xFFE) = (some ⟨.dataOutOfBounds, 0x200, some 0xF133, some 0x1000⟩, 0) := by decide
/-- T-M12. -/
theorem test_storeRegs : let t := after 0xF255 { withV [(0, 0x11), (1, 0x22), (2, 0x33), (3, 0x44)] with I := 0x400 }
    ((List.range 4).map fun k => t.readByte (0x400 + k), t.I) = ([0x11, 0x22, 0x33, 0], 0x400) := by decide
/-- T-M15. -/
theorem test_storeRegs_fault : (after 0xFF55 { State.reset with I := 0xFF1 }).fault =
    some ⟨.dataOutOfBounds, 0x200, some 0xFF55, some 0x1000⟩ := by decide
/-- T-M16. -/
theorem test_loadRegs : let t := after 0xF265 (poke 0x300 [2, 5, 4] { withV [(3, 0x77)] with I := 0x300 })
    (t.reg 0, t.reg 1, t.reg 2, t.reg 3) = (2, 5, 4, 0x77) := by decide
/-- T-M17, with the default FONT. -/
theorem test_loadRegs_font : (after 0xFF65 .reset).V.toList = [0xF0, 0x90, 0x90, 0x90, 0xF0, 0x20, 0x60, 0x20, 0x20,
    0x70, 0xF0, 0x10, 0xF0, 0x80, 0xF0, 0xF0] := by decide

/-- E6's state: an 0xFF sprite byte at 0x300, V1 = 63. -/
def edgeSprite : State := poke 0x300 [0xFF] { withV [(1, 63)] with I := 0x300 }

/-- T-D1. -/
theorem test_cls : (after 0x00E0 { State.reset with disp := togglePixel blankDisplay 3 5 }).disp = blankDisplay := by
  decide
/-- E6: columns 63, 0..6 of row 0. -/
theorem test_drw_wraps : let t := after 0xD121 edgeSprite
    ((t.disp[0].toList.zipIdx.filter (·.1)).map (·.2), t.disp[1].toList.contains true, t.reg 0xF, t.pc) =
      ([0, 1, 2, 3, 4, 5, 6, 63], false, 0, 0x202) := by decide
/-- E6's second row: a set pixel is cleared and VF is 1. -/
theorem test_drw_collision : let t := after 0xD121 { edgeSprite with disp := togglePixel blankDisplay 0 0 }
    ((t.disp[0].toList.zipIdx.filter (·.1)).map (·.2), t.reg 0xF) = ([1, 2, 3, 4, 5, 6, 63], 1) := by decide
/-- T-K1, T-K2, T-K5. -/
theorem test_skp : (after 0xE19E { withV [(1, 5)] with keys := 0x0020 }).pc = 0x204 ∧
    (after 0xE19E (withV [(1, 5)])).pc = 0x202 ∧ (after 0xE19E { withV [(1, 0x15)] with keys := 0xFFFF }).pc = 0x202 := by
  decide
/-- T-K3, T-K4, T-K5. -/
theorem test_sknp : (after 0xE1A1 { withV [(1, 5)] with keys := 0x0020 }).pc = 0x202 ∧
    (after 0xE1A1 (withV [(1, 5)])).pc = 0x204 ∧ (after 0xE1A1 { withV [(1, 0x15)] with keys := 0xFFFF }).pc = 0x204 := by
  decide
/-- T-K6. -/
theorem test_ldVxDT : let t := after 0xF107 { State.reset with DT := 5 }; (t.reg 1, t.DT) = (5, 5) := by decide
/-- E7, row 1. -/
theorem test_ldKey : let t := after 0xF30A .reset; (t.halt, t.pc, t.reg 3) = (.waitKey 3, 0x202, 0) := by decide
/-- T-K7. -/
theorem test_ldDT : (after 0xF015 (withV [(0, 7)])).DT = 7 := by decide
/-- T-K8. -/
theorem test_ldST : (after 0xF218 (withV [(2, 0x3C)])).ST = 0x3C := by decide

/-! ### Fetch, faults and host operations -/

/-- T-F5: bounds before alignment. -/
theorem test_fetch_bounds_first : (stateAfter .reset (step { State.reset with pc := 0xFFF })).fault =
    some ⟨.fetchOutOfBounds, 0xFFF, none, none⟩ := by decide
/-- T-F6: a fetch at 0xFFE is allowed. -/
theorem test_fetch_at_top : (after 0x1200 { State.reset with pc := 0xFFE }).pc = 0x200 := by decide
/-- T-F1, T-F2: an illegal opcode faults, and the next step changes nothing and reports FAULTED(1). -/
theorem test_illegal_is_sticky : let t := after 0x8008 .reset
    t.fault = some ⟨.illegalOpcode, 0x200, some 0x8008, none⟩ ∧ hostStep t = (t, .faulted .illegalOpcode) := by decide
/-- T-F11. -/
theorem test_execute_while_waiting : let s := { State.reset with halt := .waitKey 1, pc := 0x202 }
    hostExecute 0x6005 s = (s, .halted) := by decide
/-- E7, row 3. -/
theorem test_key_press : let r := deliverKeyEvent 0xA true { State.reset with halt := .waitKey 3 }
    (r.1.reg 3, r.1.keys, r.1.halt, r.2) = (0x0A, 0x0400, .notHalted, .ok) := by decide
/-- T-K11's release, T-K13. -/
theorem test_key_release_and_bad_key : let s := { State.reset with halt := .waitKey 2, keys := 0x0010 }
    (let r := deliverKeyEvent 4 false s; (r.1.keys, r.1.halt) = (0, .waitKey 2)) ∧
    deliverKeyEvent 0x10 true s = (s, .rejectedBadKey) := by decide
/-- T-K10, E8. -/
theorem test_tickTimers : let t := (tickTimers { State.reset with DT := 5, ST := 0 }).1; (t.DT, t.ST) = (4, 0) := by
  decide
/-- T-F10. -/
theorem test_loadProgram : let r := loadProgram [0x00, 0xE0] { State.reset with pc := 0x204 }
    (r.1.readByte 0x200, r.1.readByte 0x201, r.1.pc, r.2) = (0x00, 0xE0, 0x204, .ok) := by decide
/-- T-F8. -/
theorem test_loadProgram_too_large : (loadProgram (List.replicate 0xE01 0) .reset).2 = .rejectedTooLarge := by
  have h : (List.replicate 0xE01 (0 : Byte)).length > 0xE00 := by rw [List.length_replicate]; decide
  rw [loadProgram, if_pos h]
/-- T-F4: reset clears a fault. -/
theorem test_reset_after_fault : (applyOp .reset (after 0x8008 .reset)).1 = State.reset := by decide

/-! ### Witnesses: a concrete state and operands meeting the hypotheses of each statement, clause by clause where its
clauses have hypotheses of their own, at the boundary of each range -/

theorem witness_DecodeOfEncode : Instr.wf (.sys 0x0E1) = true := by decide
theorem witness_EncodeOfDecode : decode 0xF017 = .ok (.ldVxDT 0 1) := by decide
/-- Each field's last value under each clause of R85. -/
theorem witness_Unrecognized : opFamily 0x800F = 0x8#4 ∧ opFamily 0xE000 = 0xE#4 ∧ opFamily 0xF00F = 0xF#4 ∧
    opKK 0xF0F5 = 0xF5#8 := by decide
/-- pc at 0xFFF (above), 0xFFD (odd, in bounds) and 0xFFE (fetchable). -/
theorem witness_Fetch : (0xFFF#16).toNat > 0xFFE ∧ ((0xFFD#16).toNat ≤ 0xFFE ∧ (0xFFD#16).toNat % 2 = 1) ∧
    Fetchable 0xFFE#16 := by decide
/-- CLS at the entry point. -/
def clsAtEntry : State := poke 0x200 [0x00, 0xE0] .reset
theorem witness_StepRuns : clsAtEntry.Running ∧ Fetchable clsAtEntry.pc ∧
    decodeBytes [clsAtEntry.readByte clsAtEntry.pc.toNat, clsAtEntry.readByte (clsAtEntry.pc.toNat + 1)] =
      .ok (.cls, []) := by decide
theorem witness_Execute : State.reset.Running ∧ decode 0x6005 = .ok (.ldImm 0 5) ∧
    decode 0x8008 = .error (.unrecognized 0x8008) := by decide
theorem witness_StepReports : (after 0x8008 .reset).fault ≠ none ∧ (after 0xF00A .reset).halt = .waitKey 0 ∧
    (after 0xF00A .reset).fault = none ∧ State.reset.Running ∧ ∃ t, step .reset = .next t :=
  ⟨by decide, by decide, by decide, by decide, _, rfl⟩
/-- The three clauses: pc 0xFFF, pc 0xFFD, and 0x8008 at 0x200. -/
def illegalAtEntry : State := poke 0x200 [0x80, 0x08] .reset
theorem witness_StepTraps : ({ State.reset with pc := 0xFFF }).Running ∧ illegalAtEntry.Running ∧
    Fetchable illegalAtEntry.pc ∧
    illegalAtEntry.readByte illegalAtEntry.pc.toNat ++ illegalAtEntry.readByte (illegalAtEntry.pc.toNat + 1) = 0x8008#16 ∧
    decode 0x8008 = .error (.unrecognized 0x8008) := by decide
theorem witness_Advance : ∃ t, State.reset.fault = none ∧ exec .cls .reset = .next t ∧ t.fault = none ∧
    advanceBase .cls .reset = some 0x200 := ⟨_, by decide, rfl, by decide, by decide⟩
/-- sp at 15 and at 0, V[x] at 0x10. -/
theorem witness_StackAndGlyph : ({ State.reset with sp := 15 }).sp = 15 ∧ State.reset.sp = 0 ∧
    ((withV [(1, 0x10)]).reg 1).toNat > 0xF := by decide
/-- I = 0xFFE with n = 3 (0x1000 is the first bad address), I = 0xFFE for FX33, I = 0xFF1 with x = F. -/
theorem witness_BlockTraps : (0 < (3#4).toNat ∧ (0xFFE#16).toNat + (3#4).toNat - 1 > 0xFFF) ∧
    (0xFFE#16).toNat + 2 > 0xFFF ∧ (0xFF1#16).toNat + (0xF#4).toNat > 0xFFF := by decide
theorem witness_FaultEntry : ∃ t, State.reset.fault = none ∧ exec .ret .reset = .next t ∧ t.fault ≠ none :=
  ⟨_, by decide, rfl, by decide⟩
theorem witness_FaultPersists : HostOp.reset ∉ [HostOp.step, .tickTimers, .execute 0x00E0] ∧
    (after 0x8008 .reset).fault = some ⟨.illegalOpcode, 0x200, some 0x8008, none⟩ := by decide
/-- The invariant holds at reset, and a step is taken there. -/
theorem witness_Invariant : FetchInv State.reset ∧ ∃ t, step .reset = .next t :=
  ⟨⟨⟨by decide, by decide, by decide, by decide⟩, by decide, by decide⟩, _, rfl⟩
theorem witness_Sessions : ∀ op, HostOp.execute op ∉ [HostOp.step, .loadProgram [0x12, 0x00], .deliverKeyEvent 3 true] := by
  simp
theorem witness_Footprint : ∃ t, exec (.addReg 1 2) .reset = .next t ∧ writesRegister (.addReg 1 2) 3 = false :=
  ⟨_, rfl, by decide⟩
theorem witness_SoundTimer : ∃ t, exec (.ldST 1 1) .reset = .next t := ⟨_, rfl⟩
theorem witness_Aliases : State.reset.fault = none := by decide
/-- CALL at sp = 14, the last level; RET at sp = 1. -/
theorem witness_CallRet : ({ State.reset with sp := 14 }).sp ≠ 15 ∧ ({ State.reset with sp := 1 }).sp ≠ 0 := by decide
theorem witness_RetUndoesCall : ∃ t, State.reset.sp ≠ 15 ∧ exec (.call 0x300) .reset = .next t ∧ t.sp = t.sp ∧
    t.stack = t.stack := ⟨_, by decide, rfl, rfl, rfl⟩
/-- The jump to itself at 0x200. -/
def selfJump : State := poke 0x200 [0x12, 0x00] .reset
theorem witness_SelfJump : selfJump.Running ∧ Fetchable selfJump.pc ∧ (0x200#12).toNat = selfJump.pc.toNat ∧
    decodeBytes [selfJump.readByte selfJump.pc.toNat, selfJump.readByte (selfJump.pc.toNat + 1)] =
      .ok (.jp 0x200, []) := by decide
/-- Each of the four cases of x and y against VF, and both values of the flag. -/
theorem witness_VfCases : (1#4 ≠ 0xF#4 ∧ 2#4 ≠ 0xF#4) ∧ ((withV [(1, 3), (2, 2)]).reg 1).toNat >
    ((withV [(1, 3), (2, 2)]).reg 2).toNat ∧ ¬(State.reset.reg 1).toNat > (State.reset.reg 2).toNat := by decide
theorem witness_LdF : ((withV [(1, 0xF)]).reg 1).toNat ≤ 0xF := by decide
/-- The last I in bounds: 0xFFD for FX33, 0xFF0 with x = F, 0xFFE with n = 2, and n = 0 at any I. -/
theorem witness_Blocks : (0xFFD#16).toNat + 2 ≤ 0xFFF ∧ (0xFF0#16).toNat + (0xF#4).toNat ≤ 0xFFF ∧
    (0xFFE#16).toNat + (2#4).toNat - 1 ≤ 0xFFF ∧ (0#4).toNat = 0 := by decide
/-- Both clauses of the collision flag: a draw on a clear row and on a set pixel. -/
theorem witness_Collision : (after 0xD121 edgeSprite).reg 0xF = 0 ∧
    pixelAt (togglePixel blankDisplay 0 0) 0 0 = true ∧
    pixelAt (after 0xD121 { edgeSprite with disp := togglePixel blankDisplay 0 0 }).disp 0 0 = false := by decide
/-- A sprite bit at the far corner of the row wraps to column 0: covered and uncovered pixels both exist. -/
theorem witness_SpriteCovers : SpriteCovers edgeSprite 63 0 1 0 0 ∧ ¬SpriteCovers edgeSprite 63 0 1 0 7 := by
  refine ⟨⟨0, 1, by decide, by decide, by decide, by decide, by decide⟩, ?_⟩
  rintro ⟨j, k, _, hk, _, hc, _⟩
  omega
theorem witness_DrawingTwice : ∃ t w, edgeSprite.fault = none ∧ exec (.drw 1 2 1) edgeSprite = .next t ∧ t.fault = none ∧
    exec (.drw 1 2 1) t = .next w ∧ t.reg 1 = edgeSprite.reg 1 ∧ t.reg 2 = edgeSprite.reg 2 ∧ t.I = edgeSprite.I ∧
    (∀ a, t.readByte a = edgeSprite.readByte a) :=
  ⟨_, _, by decide, rfl, by decide, rfl, by decide, by decide, by decide, fun _ => rfl⟩
/-- Key codes 0xF and 0x10, a key-wait and none. -/
theorem witness_KeyEvents : 0x10 > 0xF ∧ 0xF ≤ 0xF ∧ ({ State.reset with halt := .waitKey 2 }).halt = .waitKey 2 ∧
    State.reset.halt = .notHalted := by decide
theorem witness_Ticks : ∃ t, t = (runOps (List.replicate 3 .tickTimers) .reset).1 := ⟨_, rfl⟩
theorem witness_Reset : ∃ t, t = (applyOp .reset (after 0x8008 .reset)).1 := ⟨_, rfl⟩
/-- Images of 0xE00 bytes, the longest that fits, and of 0xE01. -/
theorem witness_LoadProgram : (List.replicate 0xE00 (0 : Byte)).length ≤ 0xE00 ∧
    (List.replicate 0xE01 (0 : Byte)).length > 0xE00 := by
  rw [List.length_replicate, List.length_replicate]; decide

end Sys2Proof.Tests
end

section
/-! Decoding by family (spec/30_encoding.md R74 to R80): one equation of `decode` per top nibble, and what it says of an
opcode built from its fields in each of the three views of R70. Settles O5, O6 and O7. -/

namespace Sys2Proof

/-! ### `decode`, one equation per top nibble (R80) -/

section
variable {op : Word}

theorem decode_eq_family0 (h : opFamily op = 0x0#4) : decode op = decodeFamily0 op := by simp [decode, h]
theorem decode_eq_jp (h : opFamily op = 0x1#4) : decode op = .ok (.jp (opNNN op)) := by simp [decode, h]
theorem decode_eq_call (h : opFamily op = 0x2#4) : decode op = .ok (.call (opNNN op)) := by simp [decode, h]
theorem decode_eq_seImm (h : opFamily op = 0x3#4) : decode op = .ok (.seImm (opX op) (opKK op)) := by simp [decode, h]
theorem decode_eq_sneImm (h : opFamily op = 0x4#4) : decode op = .ok (.sneImm (opX op) (opKK op)) := by simp [decode, h]
theorem decode_eq_seReg (h : opFamily op = 0x5#4) : decode op = .ok (.seReg (opX op) (opY op) (opN op)) := by
  simp [decode, h]
theorem decode_eq_ldImm (h : opFamily op = 0x6#4) : decode op = .ok (.ldImm (opX op) (opKK op)) := by simp [decode, h]
theorem decode_eq_addImm (h : opFamily op = 0x7#4) : decode op = .ok (.addImm (opX op) (opKK op)) := by simp [decode, h]
theorem decode_eq_family8 (h : opFamily op = 0x8#4) : decode op = decodeFamily8 op := by simp [decode, h]
theorem decode_eq_sneReg (h : opFamily op = 0x9#4) : decode op = .ok (.sneReg (opX op) (opY op) (opN op)) := by
  simp [decode, h]
theorem decode_eq_ldI (h : opFamily op = 0xA#4) : decode op = .ok (.ldI (opNNN op)) := by simp [decode, h]
theorem decode_eq_jpV0 (h : opFamily op = 0xB#4) : decode op = .ok (.jpV0 (opNNN op)) := by simp [decode, h]
theorem decode_eq_rnd (h : opFamily op = 0xC#4) : decode op = .ok (.rnd (opX op) (opKK op)) := by simp [decode, h]
theorem decode_eq_drw (h : opFamily op = 0xD#4) : decode op = .ok (.drw (opX op) (opY op) (opN op)) := by
  simp [decode, h]
theorem decode_eq_familyE (h : opFamily op = 0xE#4) : decode op = decodeFamilyE op := by simp [decode, h]
theorem decode_eq_familyF (h : opFamily op = 0xF#4) : decode op = decodeFamilyF op := by simp [decode, h]

end

/-! ### The three views of R70: a family that decodes to one instruction of its fields does so for the fields a word is
built from -/

section
variable {f : Nibble}

theorem decode_addressView {i : Addr → Instr} (h : ∀ {op}, opFamily op = f → decode op = .ok (i (opNNN op)))
    (nnn : Addr) : decode (wordNNN f nnn) = .ok (i nnn) := by
  rw [h (opFamily_wordNNN f nnn), opNNN_wordNNN]

theorem decode_byteView {i : Nibble → Byte → Instr}
    (h : ∀ {op}, opFamily op = f → decode op = .ok (i (opX op) (opKK op))) (x : Nibble) (kk : Byte) :
    decode (wordXKK f x kk) = .ok (i x kk) := by
  rw [h (opFamily_wordXKK f x kk), opX_wordXKK, opKK_wordXKK]

theorem decode_nibbleView {i : Nibble → Nibble → Nibble → Instr}
    (h : ∀ {op}, opFamily op = f → decode op = .ok (i (opX op) (opY op) (opN op))) (x y n : Nibble) :
    decode (wordXYN f x y n) = .ok (i x y n) := by
  rw [h (opFamily_wordXYN f x y n), opX_wordXYN, opY_wordXYN, opN_wordXYN]

end

/-! ### The obligations -/

/-- Settles O5: each family's equation of `decode`, read in the view the family's fields have. -/
theorem topNibbleFamiliesDecode : Obligations.TopNibbleFamiliesDecode :=
  ⟨decode_addressView decode_eq_jp,
   decode_addressView decode_eq_call,
   decode_byteView decode_eq_seImm,
   decode_byteView decode_eq_sneImm,
   decode_nibbleView decode_eq_seReg,
   decode_byteView decode_eq_ldImm,
   decode_byteView decode_eq_addImm,
   decode_nibbleView decode_eq_sneReg,
   decode_addressView decode_eq_ldI,
   decode_addressView decode_eq_jpV0,
   decode_byteView decode_eq_rnd,
   decode_nibbleView decode_eq_drw⟩

/-- Settles O6: the family's selection by the low nibble, at a word built from its nibbles. -/
theorem familyEightDecodes : Obligations.FamilyEightDecodes := by
  intro x y n
  rw [← wordXYN, decode_eq_family8 (opFamily_wordXYN _ x y n), decodeFamily8]
  simp only [opX_wordXYN, opY_wordXYN, opN_wordXYN]

/-- Settles O7: the family's selection by the low nibble, at a word built from its nibbles; `h` is passed on whole. -/
theorem familyEDecodes : Obligations.FamilyEDecodes := by
  intro x h n
  rw [← wordXYN, decode_eq_familyE (opFamily_wordXYN _ x h n), decodeFamilyE]
  simp only [opX_wordXYN, opY_wordXYN, opN_wordXYN]

end Sys2Proof
end

section
/-! Jumps and skips (spec/40_control_flow.md R103, R106, R108 to R111): a transfer writes pc and keeps every other part,
and what a skip does is said once, for any condition. Settles O31, O36 and O37. -/

namespace Sys2Proof.Machine

/-! ### Jumps (R106) -/

/-- A jump writes pc and keeps every other part (spec/10_state.md R23). -/
theorem jumpTo_keepsAllBut_pc (s : State) (a : Word) : KeepsAllBut [.pc] s (s.jumpTo a) := by
  intro p hp
  cases p with
  | pc => exact absurd (List.mem_singleton.2 rfl) hp
  | V | mem => exact fun _ => rfl
  | _ => rfl

/-- Widening a 12-bit address to 16 bits keeps its value (spec/30_encoding.md R72). -/
@[simp] theorem addrOperand_toNat (nnn : Addr) : (addrOperand nnn).toNat = nnn.toNat :=
  BitVec.toNat_setWidth_of_le (by decide)

theorem exec_jp (nnn : Addr) (s : State) : exec (.jp nnn) s = .next (s.jumpTo (addrOperand nnn)) := rfl

/-! ### Skips (R103) -/

/-- A skip and its advance are together one jump, to where pc then stands. -/
theorem skipIf_advance_eq_jumpTo (s : State) (c : Bool) :
    (s.skipIf c).advance = s.jumpTo (s.skipIf c).advance.pc := by cases c <;> rfl

/-- A skip and its advance write pc and keep every other part. -/
theorem skipIf_advance_keepsAllBut_pc (s : State) (c : Bool) : KeepsAllBut [.pc] s (s.skipIf c).advance := by
  rw [skipIf_advance_eq_jumpTo]
  exact jumpTo_keepsAllBut_pc s _

/-- An instruction that answers `skipIf b` and the advance is a skip on whatever `b` decides. -/
theorem skipsWhen_of_exec_eq {i : Instr} {s : State} {b : Bool} {c : Prop}
    (hexec : exec i s = .next (s.skipIf b).advance) (hb : b = true ↔ c) : SkipsWhen i s c := by
  refine ⟨_, hexec, fun hc => ?_, fun hc => ?_, skipIf_advance_keepsAllBut_pc s b⟩
  · rw [skipIf_advance_pc, if_pos (hb.2 hc)]
  · rw [skipIf_advance_pc, if_neg (mt hb.1 hc)]

section
variable (x y n : Nibble) (kk : Byte) (s : State)

theorem exec_seImm : exec (.seImm x kk) s = .next (s.skipIf (s.reg x == kk)).advance := rfl
theorem exec_sneImm : exec (.sneImm x kk) s = .next (s.skipIf (s.reg x != kk)).advance := rfl
theorem exec_seReg : exec (.seReg x y n) s = .next (s.skipIf (s.reg x == s.reg y)).advance := rfl
theorem exec_sneReg : exec (.sneReg x y n) s = .next (s.skipIf (s.reg x != s.reg y)).advance := rfl

end

/-! ### The obligations -/

/-- Settles O31: JP decodes by the address view, and its one write is the jump's. -/
theorem jpSetsPc : Obligations.JpSetsPc := fun nnn s =>
  ⟨decode_addressView decode_eq_jp nnn,
   _, exec_jp nnn s, addrOperand_toNat nnn, jumpTo_keepsAllBut_pc s _⟩

/-- Settles O36: SE and SNE decode by the byte view, and skip on `==` and `!=` of the register and the immediate. -/
theorem skipsOnAnImmediate : Obligations.SkipsOnAnImmediate := fun x kk s =>
  ⟨decode_byteView decode_eq_seImm x kk, skipsWhen_of_exec_eq (exec_seImm x kk s) beq_iff_eq,
   decode_byteView decode_eq_sneImm x kk, skipsWhen_of_exec_eq (exec_sneImm x kk s) bne_iff_ne⟩

/-- Settles O37: SE and SNE decode by the nibble view, and skip on `==` and `!=` of the two registers, whatever `n`. -/
theorem skipsOnTwoRegisters : Obligations.SkipsOnTwoRegisters := fun x y n s =>
  ⟨decode_nibbleView decode_eq_seReg x y n, skipsWhen_of_exec_eq (exec_seReg x y n s) beq_iff_eq,
   decode_nibbleView decode_eq_sneReg x y n, skipsWhen_of_exec_eq (exec_sneReg x y n s) bne_iff_ne⟩

end Sys2Proof.Machine
end

section
/-! Moves, the immediate sum and the bitwise operations (spec/41_alu.md R132 to R137): each writes one value to `V[x]`
and advances, so what such a write does is said once, for any value. Settles O40. -/

namespace Sys2Proof.Machine

/-! ### One register write and the advance (R102, spec/10_state.md R23) -/

/-- A register write leaves every other register alone, VF among them. -/
theorem setReg_advance_keepsRegsBut (s : State) (x : Nibble) (v : Byte) :
    KeepsRegsBut [x] s (s.setReg x v).advance := fun y hy => by
  rw [reg_advance, reg_setReg_ne s v (List.ne_of_not_mem_cons hy)]

/-- A register write and its advance keep every part but the registers and pc. -/
theorem setReg_advance_keepsAllBut_V_pc (s : State) (x : Nibble) (v : Byte) :
    KeepsAllBut [.V, .pc] s (s.setReg x v).advance := by
  intro p hp
  cases p with
  | V | pc => exact absurd hp (by decide)
  | mem => exact fun _ => rfl
  | _ => rfl

/-- An instruction that answers one register write and the advance writes that register, with the value's number. -/
theorem writesReg_of_exec_eq {i : Instr} {s : State} {x : Nibble} {v : Byte} {n : Nat}
    (hexec : exec i s = .next (s.setReg x v).advance) (hv : v.toNat = n) : WritesReg i s x n := by
  refine ⟨_, hexec, ?_, setReg_advance_keepsRegsBut s x v, rfl, setReg_advance_keepsAllBut_V_pc s x v⟩
  rw [reg_advance, reg_setReg_same, hv]

section
variable (x y : Nibble) (kk : Byte) (s : State)

theorem exec_ldImm : exec (.ldImm x kk) s = .next (s.setReg x kk).advance := rfl
theorem exec_addImm : exec (.addImm x kk) s = .next (s.setReg x (s.reg x + kk)).advance := rfl
theorem exec_ldReg : exec (.ldReg x y) s = .next (s.setReg x (s.reg y)).advance := rfl
theorem exec_orReg : exec (.orReg x y) s = .next (s.setReg x (s.reg x ||| s.reg y)).advance := rfl
theorem exec_andReg : exec (.andReg x y) s = .next (s.setReg x (s.reg x &&& s.reg y)).advance := rfl
theorem exec_xorReg : exec (.xorReg x y) s = .next (s.setReg x (s.reg x ^^^ s.reg y)).advance := rfl

end

/-! ### The obligation -/

/-- Settles O40: the immediates decode by the byte view and the others by family 8's selection on the low nibble; each
is one register write, whose value `BitVec` gives as the number named. -/
theorem movesAndLogicWriteTheDestination : Obligations.MovesAndLogicWriteTheDestination := fun x y kk s =>
  ⟨⟨decode_byteView decode_eq_ldImm x kk, writesReg_of_exec_eq (exec_ldImm x kk s) rfl⟩,
   ⟨decode_byteView decode_eq_addImm x kk, writesReg_of_exec_eq (exec_addImm x kk s) (BitVec.toNat_add _ _)⟩,
   ⟨familyEightDecodes x y 0x0#4, writesReg_of_exec_eq (exec_ldReg x y s) rfl⟩,
   ⟨familyEightDecodes x y 0x1#4, writesReg_of_exec_eq (exec_orReg x y s) (BitVec.toNat_or _ _)⟩,
   ⟨familyEightDecodes x y 0x2#4, writesReg_of_exec_eq (exec_andReg x y s) (BitVec.toNat_and _ _)⟩,
   ⟨familyEightDecodes x y 0x3#4, writesReg_of_exec_eq (exec_xorReg x y s) (BitVec.toNat_xor _ _)⟩⟩

end Sys2Proof.Machine
end

section
/-! The index register (spec/42_index_memory.md R160): what a write of I and the advance keep is said once, for any
value. Settles O46. -/

namespace Sys2Proof.Machine

/-- A write of I and its advance keep every part but I and pc, VF among the kept (spec/10_state.md R23). -/
theorem setI_advance_keepsAllBut_I_pc (s : State) (v : Word) : KeepsAllBut [.I, .pc] s (s.setI v).advance := by
  intro p hp
  cases p with
  | I | pc => exact absurd hp (by decide)
  | V => exact fun x => by rw [reg_advance, reg_setI]
  | mem => exact fun a => by rw [readByte_advance, readByte_setI]
  | _ => rfl

theorem exec_ldI (nnn : Addr) (s : State) : exec (.ldI nnn) s = .next (s.setI (addrOperand nnn)).advance := rfl

/-- Settles O46: LD I decodes by the address view, and writes I with the widened address, whose number is `nnn`'s. -/
theorem ldISetsI : Obligations.LdISetsI := fun nnn s =>
  ⟨decode_addressView decode_eq_ldI nnn,
   _, exec_ldI nnn s, addrOperand_toNat nnn, rfl, setI_advance_keepsAllBut_I_pc s _⟩

end Sys2Proof.Machine
end

section
/-! The display (spec/43_display.md R181): the blank display pixel by pixel, and what a display write and the advance
keep, said once for any display. Settles O52. -/

namespace Sys2Proof.Machine

/-- Every pixel of the blank display is unset. -/
@[simp] theorem pixelAt_blankDisplay (r c : Nat) : pixelAt blankDisplay r c = false := by
  rw [pixelAt, blankDisplay, Vector.getElem_replicate, Vector.getElem_replicate]

/-- A display write and its advance keep every part but the display and pc (spec/10_state.md R23). -/
theorem setDisp_advance_keepsAllBut_disp_pc (s : State) (d : Vector (Vector Bool 64) 32) :
    KeepsAllBut [.disp, .pc] s ({ s with disp := d } : State).advance := by
  intro p hp
  cases p with
  | disp | pc => exact absurd hp (by decide)
  | V | mem => exact fun _ => rfl
  | _ => rfl

theorem exec_cls (s : State) : exec .cls s = .next ({ s with disp := blankDisplay } : State).advance := rfl

/-- The word 0x00E0 lies in family 0, which selects CLS for it (spec/30_encoding.md R75). -/
theorem decode_cls : decode 0x00E0#16 = .ok .cls :=
  (decode_eq_family0 (by decide)).trans (if_pos rfl)

/-- Settles O52: CLS decodes in family 0, and its one write is the blank display, unset at every pixel. -/
theorem clsClearsEveryPixel : Obligations.ClsClearsEveryPixel := fun s =>
  ⟨decode_cls, _, exec_cls s, fun r c _ _ => pixelAt_blankDisplay r c, rfl, setDisp_advance_keepsAllBut_disp_pc s _⟩

end Sys2Proof.Machine
end

section
/-! Timer moves (spec/44_timers_keys.md R202, R204, R205): what family F's selection (spec/30_encoding.md R79) makes of
the three forms, and what a write of one timer and the advance keep. Settles O55. -/

namespace Sys2Proof

/-! ### Family F's selection (R79): the low-byte tests, then the low nibble -/

section
variable {op : Word}

/-- A word whose low nibble is not a byte's fails the test for that byte. -/
theorem opKK_ne_of_opN_ne {kk : Byte} (h : opN op ≠ kk.extractLsb' 0 4) : opKK op ≠ kk := by
  rintro rfl
  exact h (by simp [opN, opKK])

/-- Every low byte that family F tests for ends in 5. -/
theorem familyF_lowByteTests_fail (h : opN op ≠ 0x5#4) : opKK op ≠ 0x15#8 ∧ opKK op ≠ 0x55#8 ∧ opKK op ≠ 0x65#8 :=
  ⟨opKK_ne_of_opN_ne h, opKK_ne_of_opN_ne h, opKK_ne_of_opN_ne h⟩

theorem decodeFamilyF_eq_ldDT (h : opKK op = 0x15#8) : decodeFamilyF op = .ok (.ldDT (opX op)) := if_pos h

theorem decodeFamilyF_eq_ldVxDT (h : opN op = 0x7#4) : decodeFamilyF op = .ok (.ldVxDT (opX op) (opY op)) := by
  simp [decodeFamilyF, familyF_lowByteTests_fail (op := op) (by simp [h]), h]

theorem decodeFamilyF_eq_ldST (h : opN op = 0x8#4) : decodeFamilyF op = .ok (.ldST (opX op) (opY op)) := by
  simp [decodeFamilyF, familyF_lowByteTests_fail (op := op) (by simp [h]), h]

end

/-- A form of family F selected by its low nibble `n` takes `x` and, unexamined, `h` from the nibble view (R70). -/
theorem decode_familyF_nibbleView {i : Nibble → Nibble → Instr} {n : Nibble}
    (hsel : ∀ {op}, opN op = n → decodeFamilyF op = .ok (i (opX op) (opY op))) (x h : Nibble) :
    decode (wordXYN 0xF#4 x h n) = .ok (i x h) := by
  rw [decode_eq_familyF (opFamily_wordXYN _ x h n), hsel (opN_wordXYN _ x h n), opX_wordXYN, opY_wordXYN]

/-- A form of family F selected by its low byte `kk` takes `x` from the byte view (R70). -/
theorem decode_familyF_byteView {i : Nibble → Instr} {kk : Byte}
    (hsel : ∀ {op}, opKK op = kk → decodeFamilyF op = .ok (i (opX op))) (x : Nibble) :
    decode (wordXKK 0xF#4 x kk) = .ok (i x) := by
  rw [decode_eq_familyF (opFamily_wordXKK _ x kk), hsel (opKK_wordXKK _ x kk), opX_wordXKK]

end Sys2Proof

namespace Sys2Proof.Machine

/-! ### One timer write and the advance (R102, spec/10_state.md R23) -/

/-- A write of DT and its advance keep every part but DT and pc. -/
theorem setDT_advance_keepsAllBut_DT_pc (s : State) (v : Byte) :
    KeepsAllBut [.DT, .pc] s ({ s with DT := v } : State).advance := by
  intro p hp
  cases p with
  | DT | pc => exact absurd hp (by decide)
  | V | mem => exact fun _ => rfl
  | _ => rfl

/-- A write of ST and its advance keep every part but ST and pc. -/
theorem setST_advance_keepsAllBut_ST_pc (s : State) (v : Byte) :
    KeepsAllBut [.ST, .pc] s ({ s with ST := v } : State).advance := by
  intro p hp
  cases p with
  | ST | pc => exact absurd hp (by decide)
  | V | mem => exact fun _ => rfl
  | _ => rfl

section
variable (x h : Nibble) (s : State)

theorem exec_ldVxDT : exec (.ldVxDT x h) s = .next (s.setReg x s.DT).advance := rfl
theorem exec_ldDT : exec (.ldDT x) s = .next ({ s with DT := s.reg x } : State).advance := rfl
theorem exec_ldST : exec (.ldST x h) s = .next ({ s with ST := s.reg x } : State).advance := rfl

end

/-! ### The obligation -/

/-- Settles O55: family F selects 0x15 by the low byte and 7 and 8 by the low nibble; LD Vx,DT is one register write,
and the other two write one timer each. -/
theorem timerMovesCopyTheByte : Obligations.TimerMovesCopyTheByte := fun x h s =>
  ⟨⟨decode_familyF_nibbleView decodeFamilyF_eq_ldVxDT x h, writesReg_of_exec_eq (exec_ldVxDT x h s) rfl⟩,
   ⟨decode_familyF_byteView decodeFamilyF_eq_ldDT x,
    _, exec_ldDT x s, rfl, rfl, setDT_advance_keepsAllBut_DT_pc s _⟩,
   ⟨decode_familyF_nibbleView decodeFamilyF_eq_ldST x h,
    _, exec_ldST x h s, rfl, rfl, setST_advance_keepsAllBut_ST_pc s _⟩⟩

end Sys2Proof.Machine
end

section
/-! Families 0 and F, and the decoder against the encoder, over every opcode (spec/30_encoding.md R75, R79, R80,
R82). Settles O1, O2, O4, O8 and O10. -/

namespace Sys2Proof

/-! ### Words and their nibbles (R70) -/

/-- A 4-bit field has one of sixteen values: the case split on a family or on a low nibble. -/
theorem nibble_cases (f : Nibble) :
    f = 0x0#4 ∨ f = 0x1#4 ∨ f = 0x2#4 ∨ f = 0x3#4 ∨ f = 0x4#4 ∨ f = 0x5#4 ∨ f = 0x6#4 ∨ f = 0x7#4 ∨
    f = 0x8#4 ∨ f = 0x9#4 ∨ f = 0xA#4 ∨ f = 0xB#4 ∨ f = 0xC#4 ∨ f = 0xD#4 ∨ f = 0xE#4 ∨ f = 0xF#4 := by
  revert f; decide

section
variable {op : Word} {f n : Nibble} {kk : Byte}

/-- The word of an opcode's own fields, its family and low nibble known, is the opcode. -/
theorem wordXYN_of_fields (hf : opFamily op = f) (hn : opN op = n) : wordXYN f (opX op) (opY op) n = op := by
  rw [← hf, ← hn, wordXYN_fields]

/-- The word of an opcode's own fields, its family and low byte known, is the opcode. -/
theorem wordXKK_of_fields (hf : opFamily op = f) (hkk : opKK op = kk) : wordXKK f (opX op) kk = op := by
  rw [← hf, ← hkk, wordXKK_fields]

/-- The word of an opcode's own `nnn`, its family known, is the opcode. -/
theorem wordNNN_of_fields (hf : opFamily op = f) : wordNNN f (opNNN op) = op := by
  rw [← hf, wordNNN_fields]

end

/-- Two words of one family are the same exactly when their addresses are. -/
theorem wordNNN_inj {f : Nibble} {a b : Addr} : wordNNN f a = wordNNN f b ↔ a = b :=
  ⟨fun h => by simpa using congrArg opNNN h, congrArg _⟩

/-! ### Family 0 (R75) and family F (R79) -/

/-- Settles O4: in family 0 the test of the whole word is a test of `nnn`. -/
theorem familyZeroDecodes : Obligations.FamilyZeroDecodes := by
  intro nnn
  have hcls : wordNNN 0x0#4 nnn = 0x00E0#16 ↔ nnn = 0x0E0#12 := wordNNN_inj (b := 0x0E0#12)
  have hret : wordNNN 0x0#4 nnn = 0x00EE#16 ↔ nnn = 0x0EE#12 := wordNNN_inj (b := 0x0EE#12)
  rw [← wordNNN, decode_eq_family0 (opFamily_wordNNN _ nnn), decodeFamily0, opNNN_wordNNN]
  simp only [hcls, hret]

/-- The low-byte tests of family F, where the low nibble is 5, are tests of the nibble above it (R79). -/
theorem append_five_eq_iff (h : Nibble) :
    (h ++ 0x5#4 = 0x15#8 ↔ h = 0x1#4) ∧ (h ++ 0x5#4 = 0x55#8 ↔ h = 0x5#4) ∧ (h ++ 0x5#4 = 0x65#8 ↔ h = 0x6#4) := by
  revert h; decide

/-- Settles O8: with low nibble 5 the low-byte tests decide; with any other they fail, and the low nibble decides. -/
theorem familyFDecodes : Obligations.FamilyFDecodes := by
  intro x h n
  rw [← wordXYN, decode_eq_familyF (opFamily_wordXYN _ x h n)]
  by_cases hn : n = 0x5#4
  · subst hn
    obtain ⟨h15, h55, h65⟩ := append_five_eq_iff h
    simp [decodeFamilyF, h15, h55, h65]
  · obtain ⟨h15, h55, h65⟩ := familyF_lowByteTests_fail (op := wordXYN 0xF#4 x h n) (by rwa [opN_wordXYN])
    rw [decodeFamilyF, if_neg h15, if_neg h55, if_neg h65, if_neg hn]
    simp only [opX_wordXYN, opY_wordXYN, opN_wordXYN]

/-! ### Decoding what `encode` wrote -/

theorem decodeFamilyF_eq_storeRegs {op : Word} (h : opKK op = 0x55#8) :
    decodeFamilyF op = .ok (.storeRegs (opX op)) := by simp [decodeFamilyF, h]

theorem decodeFamilyF_eq_loadRegs {op : Word} (h : opKK op = 0x65#8) :
    decodeFamilyF op = .ok (.loadRegs (opX op)) := by simp [decodeFamilyF, h]

/-- A SYS that stands for a word of its own is decoded from it (R75). -/
theorem decode_sys {nnn : Addr} (h : (Instr.sys nnn).wf = true) : decode (wordNNN 0x0#4 nnn) = .ok (.sys nnn) := by
  obtain ⟨hcls, hret⟩ : nnn ≠ 0x0E0#12 ∧ nnn ≠ 0x0EE#12 := by simpa [Instr.wf] using h
  rw [wordNNN, familyZeroDecodes nnn, if_neg hcls, if_neg hret]

/-- Settles O1, one case per constructor: the pattern of R82 that `encode` writes is a word of the view its family
decodes by. -/
theorem decodeOfEncodeIsTheInstruction : Obligations.DecodeOfEncodeIsTheInstruction := by
  intro i hwf
  cases i with
  | sys nnn => exact decode_sys hwf
  | cls => exact familyZeroDecodes 0x0E0#12
  | ret => exact familyZeroDecodes 0x0EE#12
  | jp nnn => exact decode_addressView decode_eq_jp nnn
  | call nnn => exact decode_addressView decode_eq_call nnn
  | seImm x kk => exact decode_byteView decode_eq_seImm x kk
  | sneImm x kk => exact decode_byteView decode_eq_sneImm x kk
  | seReg x y n => exact decode_nibbleView decode_eq_seReg x y n
  | ldImm x kk => exact decode_byteView decode_eq_ldImm x kk
  | addImm x kk => exact decode_byteView decode_eq_addImm x kk
  | ldReg x y => exact familyEightDecodes x y 0x0#4
  | orReg x y => exact familyEightDecodes x y 0x1#4
  | andReg x y => exact familyEightDecodes x y 0x2#4
  | xorReg x y => exact familyEightDecodes x y 0x3#4
  | addReg x y => exact familyEightDecodes x y 0x4#4
  | subReg x y => exact familyEightDecodes x y 0x5#4
  | shr x y => exact familyEightDecodes x y 0x6#4
  | subnReg x y => exact familyEightDecodes x y 0x7#4
  | shl x y => exact familyEightDecodes x y 0xE#4
  | sneReg x y n => exact decode_nibbleView decode_eq_sneReg x y n
  | ldI nnn => exact decode_addressView decode_eq_ldI nnn
  | jpV0 nnn => exact decode_addressView decode_eq_jpV0 nnn
  | rnd x kk => exact decode_byteView decode_eq_rnd x kk
  | drw x y n => exact decode_nibbleView decode_eq_drw x y n
  | skp x h => exact familyEDecodes x h 0xE#4
  | sknp x h => exact familyEDecodes x h 0x1#4
  | ldVxDT x h => exact familyFDecodes x h 0x7#4
  | ldKey x h => exact familyFDecodes x h 0xA#4
  | ldDT x => exact decode_familyF_byteView decodeFamilyF_eq_ldDT x
  | ldST x h => exact familyFDecodes x h 0x8#4
  | addI x h => exact familyFDecodes x h 0xE#4
  | ldF x h => exact familyFDecodes x h 0x9#4
  | ldB x h => exact familyFDecodes x h 0x3#4
  | storeRegs x => exact decode_familyF_byteView decodeFamilyF_eq_storeRegs x
  | loadRegs x => exact decode_familyF_byteView decodeFamilyF_eq_loadRegs x

/-! ### Encoding what `decode` answered -/

section
variable {op : Word} {i : Instr}

/-- Family 0: a word that is neither CLS nor RET is a well-formed SYS (R75). -/
theorem encode_of_decodeFamily0 (hf : opFamily op = 0x0#4) (h : decodeFamily0 op = .ok i) :
    encode i = op ∧ i.wf = true := by
  have hop : wordNNN 0x0#4 (opNNN op) = op := wordNNN_of_fields hf
  unfold decodeFamily0 at h
  split_ifs at h with hcls hret <;> cases h
  · exact ⟨hcls.symm, rfl⟩
  · exact ⟨hret.symm, rfl⟩
  · have hne0 : opNNN op ≠ 0x0E0#12 := fun e => hcls (by rw [← hop, e]; rfl)
    have hneE : opNNN op ≠ 0x0EE#12 := fun e => hret (by rw [← hop, e]; rfl)
    exact ⟨hop, by simp [Instr.wf, hne0, hneE]⟩

theorem encode_of_decodeFamily8 (hf : opFamily op = 0x8#4) (h : decodeFamily8 op = .ok i) :
    encode i = op ∧ i.wf = true := by
  simp only [decodeFamily8] at h
  split_ifs at h with hn hn hn hn hn hn hn hn hn <;> cases h <;> exact ⟨wordXYN_of_fields hf hn, rfl⟩

theorem encode_of_decodeFamilyE (hf : opFamily op = 0xE#4) (h : decodeFamilyE op = .ok i) :
    encode i = op ∧ i.wf = true := by
  simp only [decodeFamilyE] at h
  split_ifs at h with hn hn <;> cases h <;> exact ⟨wordXYN_of_fields hf hn, rfl⟩

theorem encode_of_decodeFamilyF (hf : opFamily op = 0xF#4) (h : decodeFamilyF op = .ok i) :
    encode i = op ∧ i.wf = true := by
  simp only [decodeFamilyF] at h
  split_ifs at h with hkk hkk hkk hn hn hn hn hn hn <;> cases h
  iterate 3 exact ⟨wordXKK_of_fields hf hkk, rfl⟩
  all_goals exact ⟨wordXYN_of_fields hf hn, rfl⟩

/-- An instruction that a family's one equation answers encodes to the opcode if the word of its fields is it. -/
theorem encode_of_decode_eq {j : Instr} (h : decode op = .ok i) (heq : decode op = .ok j) (henc : encode j = op)
    (hwf : j.wf = true) : encode i = op ∧ i.wf = true := by
  obtain rfl : i = j := Except.ok.inj (h.symm.trans heq)
  exact ⟨henc, hwf⟩

end

/-- Settles O2, one case per family: the fields it decodes are laid out again where they stood. -/
theorem encodeOfDecodeIsTheOpcode : Obligations.EncodeOfDecodeIsTheOpcode := by
  intro op i h
  obtain hf | hf | hf | hf | hf | hf | hf | hf | hf | hf | hf | hf | hf | hf | hf | hf := nibble_cases (opFamily op)
  · exact encode_of_decodeFamily0 hf (decode_eq_family0 hf ▸ h)
  · exact encode_of_decode_eq h (decode_eq_jp hf) (wordNNN_of_fields hf) rfl
  · exact encode_of_decode_eq h (decode_eq_call hf) (wordNNN_of_fields hf) rfl
  · exact encode_of_decode_eq h (decode_eq_seImm hf) (wordXKK_of_fields hf rfl) rfl
  · exact encode_of_decode_eq h (decode_eq_sneImm hf) (wordXKK_of_fields hf rfl) rfl
  · exact encode_of_decode_eq h (decode_eq_seReg hf) (wordXYN_of_fields hf rfl) rfl
  · exact encode_of_decode_eq h (decode_eq_ldImm hf) (wordXKK_of_fields hf rfl) rfl
  · exact encode_of_decode_eq h (decode_eq_addImm hf) (wordXKK_of_fields hf rfl) rfl
  · exact encode_of_decodeFamily8 hf (decode_eq_family8 hf ▸ h)
  · exact encode_of_decode_eq h (decode_eq_sneReg hf) (wordXYN_of_fields hf rfl) rfl
  · exact encode_of_decode_eq h (decode_eq_ldI hf) (wordNNN_of_fields hf) rfl
  · exact encode_of_decode_eq h (decode_eq_jpV0 hf) (wordNNN_of_fields hf) rfl
  · exact encode_of_decode_eq h (decode_eq_rnd hf) (wordXKK_of_fields hf rfl) rfl
  · exact encode_of_decode_eq h (decode_eq_drw hf) (wordXYN_of_fields hf rfl) rfl
  · exact encode_of_decodeFamilyE hf (decode_eq_familyE hf ▸ h)
  · exact encode_of_decodeFamilyF hf (decode_eq_familyF hf ▸ h)

/-! ### Sample words (spec/95_test_vectors.md T-E) -/

/-- Settles O10: each word lies in a family whose equation of `decode` gives what T-E lists. -/
theorem sampleWordsDecode : Obligations.SampleWordsDecode :=
  ⟨familyZeroDecodes 0x0FF, decode_addressView decode_eq_jp 0xABC, decode_byteView decode_eq_seImm 0xA 0x12,
   decode_nibbleView decode_eq_seReg 1 2 1, familyEightDecodes 1 2 5, familyEightDecodes 1 2 0xE,
   familyEightDecodes 1 2 8, decode_addressView decode_eq_ldI 0x123, decode_nibbleView decode_eq_drw 1 2 5,
   familyEDecodes 1 0 0xE, familyFDecodes 0 1 7, familyFDecodes 1 5 5, familyFDecodes 1 0 5⟩

end Sys2Proof
end

section
/-! Unrecognized opcodes (spec/30_encoding.md R85), family by family. Settles O9. -/

namespace Sys2Proof

section
variable {op : Word}

/-- Outside the families 8, E and F every opcode decodes (R76). -/
theorem decodes_of_other_family (h8 : opFamily op ≠ 0x8#4) (hE : opFamily op ≠ 0xE#4) (hF : opFamily op ≠ 0xF#4) :
    ∃ i, decode op = .ok i := by
  obtain hf | hf | hf | hf | hf | hf | hf | hf | hf | hf | hf | hf | hf | hf | hf | hf := nibble_cases (opFamily op)
  · rw [decode_eq_family0 hf, decodeFamily0]
    split_ifs <;> exact ⟨_, rfl⟩
  · exact ⟨_, decode_eq_jp hf⟩
  · exact ⟨_, decode_eq_call hf⟩
  · exact ⟨_, decode_eq_seImm hf⟩
  · exact ⟨_, decode_eq_sneImm hf⟩
  · exact ⟨_, decode_eq_seReg hf⟩
  · exact ⟨_, decode_eq_ldImm hf⟩
  · exact ⟨_, decode_eq_addImm hf⟩
  · exact absurd hf h8
  · exact ⟨_, decode_eq_sneReg hf⟩
  · exact ⟨_, decode_eq_ldI hf⟩
  · exact ⟨_, decode_eq_jpV0 hf⟩
  · exact ⟨_, decode_eq_rnd hf⟩
  · exact ⟨_, decode_eq_drw hf⟩
  · exact absurd hf hE
  · exact absurd hf hF

theorem decodeFamily8_error_iff :
    (∃ e, decodeFamily8 op = .error e) ↔ opN op ∈ [0x8#4, 0x9#4, 0xA#4, 0xB#4, 0xC#4, 0xD#4, 0xF#4] := by
  obtain hn | hn | hn | hn | hn | hn | hn | hn | hn | hn | hn | hn | hn | hn | hn | hn := nibble_cases (opN op) <;>
    simp [decodeFamily8, hn]

theorem decodeFamilyE_error_iff : (∃ e, decodeFamilyE op = .error e) ↔ opN op ∉ [0x1#4, 0xE#4] := by
  unfold decodeFamilyE
  split_ifs with hE h1
  · simp [hE]
  · simp [h1]
  · simp [hE, h1]

/-- The thirteen low bytes of R85 are those that end in 5 and that no low-byte test of family F takes. -/
theorem lowByte_unrecognized_iff (h n : Nibble) :
    h ++ n ∈ [0x05#8, 0x25#8, 0x35#8, 0x45#8, 0x75#8, 0x85#8, 0x95#8, 0xA5#8, 0xB5#8, 0xC5#8, 0xD5#8, 0xE5#8, 0xF5#8] ↔
      n = 0x5#4 ∧ h ∉ [0x1#4, 0x5#4, 0x6#4] := by
  revert h n; decide

/-- Family F is unrecognized by its low nibble, or, where that is 5, by the nibble above it. -/
theorem decodeFamilyF_error_iff (hf : opFamily op = 0xF#4) :
    (∃ e, decodeFamilyF op = .error e) ↔
      opN op ∈ [0x0#4, 0x1#4, 0x2#4, 0x4#4, 0x6#4, 0xB#4, 0xC#4, 0xD#4, 0xF#4] ∨
      (opN op = 0x5#4 ∧ opY op ∉ [0x1#4, 0x5#4, 0x6#4]) := by
  have hdec := familyFDecodes (opX op) (opY op) (opN op)
  rw [← wordXYN, wordXYN_of_fields hf rfl] at hdec
  rw [← decode_eq_familyF hf, hdec]
  by_cases hn : opN op = 0x5#4
  · rw [if_pos hn]
    split_ifs with h1 h5 h6 <;> simp [*]
  · rw [if_neg hn]
    obtain hn | hn | hn | hn | hn | hn | hn | hn | hn | hn | hn | hn | hn | hn | hn | hn := nibble_cases (opN op) <;>
      simp_all

end

/-- Settles O9: each of the families 8, E and F has its own list, and no other family has an error. -/
theorem unrecognizedOpcodesAreExactlyThese : Obligations.UnrecognizedOpcodesAreExactlyThese := by
  intro op
  rw [opKK_eq, lowByte_unrecognized_iff]
  by_cases h8 : opFamily op = 0x8#4
  · simp [decode_eq_family8 h8, decodeFamily8_error_iff, h8]
  by_cases hE : opFamily op = 0xE#4
  · simp [decode_eq_familyE hE, decodeFamilyE_error_iff, hE]
  by_cases hF : opFamily op = 0xF#4
  · simp [decode_eq_familyF hF, decodeFamilyF_error_iff hF, hF]
  · obtain ⟨i, hi⟩ := decodes_of_other_family h8 hE hF
    simp [h8, hE, hF, hi]

end Sys2Proof
end

section
/-! The opcode map of spec/30_encoding.md R82 against the decoder of R80. The rows have four shapes, by the bits their
mask examines, and a row of each shape matches by the fields it names. Settles O3. -/

namespace Sys2Proof

/-! ### Masking a word, field by field -/

section
variable (op m : Word)

@[simp] theorem opFamily_and : opFamily (op &&& m) = opFamily op &&& opFamily m := BitVec.extractLsb'_and
@[simp] theorem opX_and : opX (op &&& m) = opX op &&& opX m := BitVec.extractLsb'_and
@[simp] theorem opY_and : opY (op &&& m) = opY op &&& opY m := BitVec.extractLsb'_and
@[simp] theorem opN_and : opN (op &&& m) = opN op &&& opN m := BitVec.extractLsb'_and

end

/-- Two words are the same exactly when their four nibbles are. -/
theorem word_eq_iff {a b : Word} :
    a = b ↔ opFamily a = opFamily b ∧ opX a = opX b ∧ opY a = opY b ∧ opN a = opN b := by
  constructor
  · rintro rfl; exact ⟨rfl, rfl, rfl, rfl⟩
  · rintro ⟨hf, hx, hy, hn⟩
    rw [← wordXYN_fields a, hf, hx, hy, hn, wordXYN_fields]

@[simp] theorem nibble_and_F (v : Nibble) : v &&& 0xF#4 = v := BitVec.and_allOnes

/-! ### The four shapes of a row -/

/-- A row that examines the family alone. -/
def MapRow.ofFamily (name : String) (f : Nibble) : MapRow := ⟨name, wordXYN f 0 0 0, wordXYN 0xF 0 0 0, []⟩

/-- A row that examines the family and the low nibble. -/
def MapRow.ofLowNibble (name : String) (f n : Nibble) : MapRow := ⟨name, wordXYN f 0 0 n, wordXYN 0xF 0 0 0xF, []⟩

/-- A row that examines the family and the low byte. -/
def MapRow.ofLowByte (name : String) (f y n : Nibble) : MapRow := ⟨name, wordXYN f 0 y n, wordXYN 0xF 0 0xF 0xF, []⟩

/-- A row of one word. -/
def MapRow.ofWord (name : String) (w : Word) : MapRow := ⟨name, w, wordXYN 0xF 0xF 0xF 0xF, []⟩

/-- The row of SYS: family 0 less the two words of CLS and RET. -/
def MapRow.ofSys : MapRow := ⟨"SYS_nnn", wordXYN 0 0 0 0, wordXYN 0xF 0 0 0, [0x00E0#16, 0x00EE#16]⟩

section
variable (name : String) (f y n : Nibble) (op : Word)

@[simp] theorem ofFamily_matchesOp : (MapRow.ofFamily name f).matchesOp op = decide (opFamily op = f) := by
  simp [MapRow.ofFamily, MapRow.matchesOp, word_eq_iff, Bool.beq_eq_decide_eq]

@[simp] theorem ofLowNibble_matchesOp :
    (MapRow.ofLowNibble name f n).matchesOp op = decide (opFamily op = f ∧ opN op = n) := by
  simp [MapRow.ofLowNibble, MapRow.matchesOp, word_eq_iff, Bool.beq_eq_decide_eq]

@[simp] theorem ofLowByte_matchesOp :
    (MapRow.ofLowByte name f y n).matchesOp op = decide (opFamily op = f ∧ opY op = y ∧ opN op = n) := by
  simp [MapRow.ofLowByte, MapRow.matchesOp, word_eq_iff, Bool.beq_eq_decide_eq]

@[simp] theorem ofWord_matchesOp (w : Word) : (MapRow.ofWord name w).matchesOp op = decide (op = w) := by
  simp [MapRow.ofWord, MapRow.matchesOp, word_eq_iff, Bool.beq_eq_decide_eq]

@[simp] theorem ofSys_matchesOp :
    MapRow.ofSys.matchesOp op = decide (opFamily op = 0x0#4 ∧ op ≠ 0x00E0#16 ∧ op ≠ 0x00EE#16) := by
  simp [MapRow.ofSys, MapRow.matchesOp, word_eq_iff (a := op &&& _), Bool.beq_eq_decide_eq]

end

@[simp] theorem ofFamily_mnemonic (name : String) (f : Nibble) : (MapRow.ofFamily name f).mnemonic = name := rfl
@[simp] theorem ofLowNibble_mnemonic (name : String) (f n : Nibble) :
    (MapRow.ofLowNibble name f n).mnemonic = name := rfl
@[simp] theorem ofLowByte_mnemonic (name : String) (f y n : Nibble) :
    (MapRow.ofLowByte name f y n).mnemonic = name := rfl
@[simp] theorem ofWord_mnemonic (name : String) (w : Word) : (MapRow.ofWord name w).mnemonic = name := rfl
@[simp] theorem ofSys_mnemonic : MapRow.ofSys.mnemonic = "SYS_nnn" := rfl

/-! ### The rows of one family -/

/-- The rows of R82 in one family, by the top nibble of the value they match. -/
def rowsOfFamily (f : Nibble) : List MapRow := opcodeMap.filter fun r => opFamily r.value == f

/-- Every row examines the family. -/
theorem opFamily_mask_of_mem : ∀ r ∈ opcodeMap, opFamily r.mask = 0xF#4 := by decide

/-- A row matches opcodes of its own family only. -/
theorem opFamily_value_of_matchesOp {r : MapRow} {op : Word} (hr : r ∈ opcodeMap) (h : r.matchesOp op = true) :
    opFamily r.value = opFamily op := by
  have hmasked : op &&& r.mask = r.value := by
    simp only [MapRow.matchesOp, Bool.and_eq_true, beq_iff_eq] at h
    exact h.1
  rw [← hmasked, opFamily_and, opFamily_mask_of_mem r hr, nibble_and_F]

/-- So only the rows of an opcode's family need be looked at. -/
theorem filter_matchesOp_eq {op : Word} {f : Nibble} (hf : opFamily op = f) :
    opcodeMap.filter (·.matchesOp op) = (rowsOfFamily f).filter (·.matchesOp op) := by
  rw [rowsOfFamily, List.filter_filter]
  refine List.filter_congr fun r hr => ?_
  cases hm : r.matchesOp op
  · rfl
  · simp [opFamily_value_of_matchesOp hr hm, hf]

open MapRow in
theorem rowsOfFamily_zero :
    rowsOfFamily 0x0#4 = [ofSys, ofWord "CLS" 0x00E0#16, ofWord "RET" 0x00EE#16] := rfl

open MapRow in
theorem rowsOfFamily_eight : rowsOfFamily 0x8#4 =
    [ofLowNibble "LD_Vx__Vy" 0x8 0x0, ofLowNibble "OR_Vx__Vy" 0x8 0x1, ofLowNibble "AND_Vx__Vy" 0x8 0x2,
     ofLowNibble "XOR_Vx__Vy" 0x8 0x3, ofLowNibble "ADD_Vx__Vy" 0x8 0x4, ofLowNibble "SUB_Vx__Vy" 0x8 0x5,
     ofLowNibble "SHR_Vx" 0x8 0x6, ofLowNibble "SUBN_Vx__Vy" 0x8 0x7, ofLowNibble "SHL_Vx" 0x8 0xE] := rfl

open MapRow in
theorem rowsOfFamily_E : rowsOfFamily 0xE#4 =
    [ofLowNibble "SKP_Vx" 0xE 0xE, ofLowNibble "SKNP_Vx" 0xE 0x1] := rfl

open MapRow in
theorem rowsOfFamily_F : rowsOfFamily 0xF#4 =
    [ofLowNibble "LD_Vx__DT" 0xF 0x7, ofLowNibble "LD_Vx__K" 0xF 0xA, ofLowByte "LD_DT__Vx" 0xF 0x1 0x5,
     ofLowNibble "LD_ST__Vx" 0xF 0x8, ofLowNibble "ADD_I__Vx" 0xF 0xE, ofLowNibble "LD_F__Vx" 0xF 0x9,
     ofLowNibble "LD_B__Vx" 0xF 0x3, ofLowByte "LD__I___Vx" 0xF 0x5 0x5, ofLowByte "LD_Vx___I" 0xF 0x6 0x5] := rfl

/-! ### Decoder and map, family by family -/

/-- The mnemonics of the rows of R82 that an opcode matches. -/
def matchedNames (op : Word) : List String := (opcodeMap.filter (·.matchesOp op)).map (·.mnemonic)

/-- What the decoder's answer says of the rows the opcode matches: the one row of its instruction, or, if it names the
opcode as unrecognized, none. -/
def NamesAgree (op : Word) (names : List String) : Except DecodeError Instr → Prop
  | .ok i => names = [i.mnemonic]
  | .error e => e = .unrecognized op ∧ names = []

section
variable {op : Word}

/-- Family 0 has the rows of its two exact words and, for the rest, that of SYS. -/
theorem namesAgree_family0 (hf : opFamily op = 0x0#4) : NamesAgree op (matchedNames op) (decode op) := by
  rw [decode_eq_family0 hf, decodeFamily0, matchedNames, filter_matchesOp_eq hf, rowsOfFamily_zero]
  split_ifs with hcls hret
  · subst hcls; simp [NamesAgree, Instr.mnemonic]
  · subst hret; simp [NamesAgree, Instr.mnemonic]
  · simp [NamesAgree, Instr.mnemonic, hf, hcls, hret]

/-- A family that the decoder takes whole, one row takes whole. -/
theorem namesAgree_wholeFamily {f : Nibble} {i : Instr} (hf : opFamily op = f) (hdec : decode op = .ok i)
    (hrow : rowsOfFamily f = [.ofFamily i.mnemonic f]) : NamesAgree op (matchedNames op) (decode op) := by
  rw [hdec, matchedNames, filter_matchesOp_eq hf, hrow]
  simp [NamesAgree, hf]

theorem namesAgree_family8 (hf : opFamily op = 0x8#4) : NamesAgree op (matchedNames op) (decode op) := by
  rw [decode_eq_family8 hf, decodeFamily8, matchedNames, filter_matchesOp_eq hf, rowsOfFamily_eight]
  split_ifs <;> simp [NamesAgree, Instr.mnemonic, *]

theorem namesAgree_familyE (hf : opFamily op = 0xE#4) : NamesAgree op (matchedNames op) (decode op) := by
  rw [decode_eq_familyE hf, decodeFamilyE, matchedNames, filter_matchesOp_eq hf, rowsOfFamily_E]
  split_ifs <;> simp [NamesAgree, Instr.mnemonic, *]

/-- Family F by `familyFDecodes`, which tests the fields the rows test: the low nibble, and for 5 the one above it. -/
theorem namesAgree_familyF (hf : opFamily op = 0xF#4) : NamesAgree op (matchedNames op) (decode op) := by
  have hdec := familyFDecodes (opX op) (opY op) (opN op)
  rw [← wordXYN, wordXYN_of_fields hf rfl] at hdec
  rw [hdec, matchedNames, filter_matchesOp_eq hf, rowsOfFamily_F]
  split_ifs <;> simp [NamesAgree, Instr.mnemonic, *]

/-- One row, the instruction's, for each opcode that decodes, and none for any other. -/
theorem namesAgree_decode (op : Word) : NamesAgree op (matchedNames op) (decode op) := by
  obtain hf | hf | hf | hf | hf | hf | hf | hf | hf | hf | hf | hf | hf | hf | hf | hf := nibble_cases (opFamily op)
  · exact namesAgree_family0 hf
  · exact namesAgree_wholeFamily hf (decode_eq_jp hf) rfl
  · exact namesAgree_wholeFamily hf (decode_eq_call hf) rfl
  · exact namesAgree_wholeFamily hf (decode_eq_seImm hf) rfl
  · exact namesAgree_wholeFamily hf (decode_eq_sneImm hf) rfl
  · exact namesAgree_wholeFamily hf (decode_eq_seReg hf) rfl
  · exact namesAgree_wholeFamily hf (decode_eq_ldImm hf) rfl
  · exact namesAgree_wholeFamily hf (decode_eq_addImm hf) rfl
  · exact namesAgree_family8 hf
  · exact namesAgree_wholeFamily hf (decode_eq_sneReg hf) rfl
  · exact namesAgree_wholeFamily hf (decode_eq_ldI hf) rfl
  · exact namesAgree_wholeFamily hf (decode_eq_jpV0 hf) rfl
  · exact namesAgree_wholeFamily hf (decode_eq_rnd hf) rfl
  · exact namesAgree_wholeFamily hf (decode_eq_drw hf) rfl
  · exact namesAgree_familyE hf
  · exact namesAgree_familyF hf

end

/-- Settles O3: the agreement of the names, read off for each answer of the decoder. -/
theorem decoderAgreesWithOpcodeMap : Obligations.DecoderAgreesWithOpcodeMap := by
  intro op
  have hagree := namesAgree_decode op
  cases hd : decode op with
  | ok i => rw [hd] at hagree; exact hagree
  | error e =>
    rw [hd] at hagree
    obtain ⟨he, hnone⟩ := hagree
    exact ⟨he, List.map_eq_nil_iff.1 hnone⟩

end Sys2Proof
end

section
/-! What an instruction can do, said once for all 35: its own check (spec/60_exceptions.md R221) records a fault, or it
completes by its rule. Then what a completed instruction does to each part of the state. -/

namespace Sys2Proof.Machine

/-- The check an instruction makes before its rule: the fault code and the info it would record (R221). -/
def ownCheck (i : Instr) (s : State) : Option (FaultCode × Option Word) :=
  match i with
  | .ret => if s.sp = 0 then some (.stackUnderflow, none) else none
  | .call _ => if s.sp = 15 then some (.stackOverflow, none) else none
  | .drw _ _ n => if s.blockOutOfBounds n.toNat then some (.dataOutOfBounds, some s.firstBadAddr) else none
  | .ldF x _ => if (s.reg x).toNat > 0xF then some (.glyphOutOfRange, some (zext16 (s.reg x))) else none
  | .ldB _ _ => if s.blockOutOfBounds 3 then some (.dataOutOfBounds, some s.firstBadAddr) else none
  | .storeRegs x => if s.blockOutOfBounds (x.toNat + 1) then some (.dataOutOfBounds, some s.firstBadAddr) else none
  | .loadRegs x => if s.blockOutOfBounds (x.toNat + 1) then some (.dataOutOfBounds, some s.firstBadAddr) else none
  | _ => none

/-- The flag to VF first, then a value to `V[x]` (spec/41_alu.md R144), and the advance. -/
def State.setFlagThenReg (s : State) (f : Byte) (x : Nibble) (v : State → Byte) : State :=
  ((s.setReg vf f).setReg x (v (s.setReg vf f))).advance

/-- The canvas of DRW after every pixel (spec/43_display.md R182). -/
def State.drawn (s : State) (x y n : Nibble) : Canvas :=
  blitRows (s.reg x).toNat (s.reg y).toNat (s.readBlock n.toNat) ⟨s.disp, false⟩

/-- The state an instruction leaves when its own check passes: its rule and, where R102 says so, the advance. -/
def completed (i : Instr) (s : State) : State :=
  match i with
  | .sys nnn => s.jumpTo (addrOperand nnn)
  | .cls => ({ s with disp := blankDisplay } : State).advance
  | .ret => s.popReturn.advance
  | .jp nnn => s.jumpTo (addrOperand nnn)
  | .call nnn => s.pushAndJump (addrOperand nnn)
  | .seImm x kk => (s.skipIf (s.reg x == kk)).advance
  | .sneImm x kk => (s.skipIf (s.reg x != kk)).advance
  | .seReg x y _ => (s.skipIf (s.reg x == s.reg y)).advance
  | .ldImm x kk => (s.setReg x kk).advance
  | .addImm x kk => (s.setReg x (s.reg x + kk)).advance
  | .ldReg x y => (s.setReg x (s.reg y)).advance
  | .orReg x y => (s.setReg x (s.reg x ||| s.reg y)).advance
  | .andReg x y => (s.setReg x (s.reg x &&& s.reg y)).advance
  | .xorReg x y => (s.setReg x (s.reg x ^^^ s.reg y)).advance
  | .addReg x y => s.setFlagThenReg (carryFlag (s.reg x) (s.reg y)) x fun _ => s.reg x + s.reg y
  | .subReg x y => s.setFlagThenReg (greaterFlag (s.reg x) (s.reg y)) x fun t => t.reg x - t.reg y
  | .shr x _ => s.setFlagThenReg (lowBitFlag (s.reg x)) x fun t => t.reg x >>> 1
  | .subnReg x y => s.setFlagThenReg (greaterFlag (s.reg y) (s.reg x)) x fun t => t.reg y - t.reg x
  | .shl x _ => s.setFlagThenReg (highBitFlag (s.reg x)) x fun t => t.reg x <<< 1
  | .sneReg x y _ => (s.skipIf (s.reg x != s.reg y)).advance
  | .ldI nnn => (s.setI (addrOperand nnn)).advance
  | .jpV0 nnn => s.jumpTo (addrOperand nnn + zext16 (s.reg 0x0#4))
  | .rnd x kk => (s.drawByte.2.setReg x (s.drawByte.1 &&& kk)).advance
  | .drw x y n => (({ s with disp := (s.drawn x y n).disp } : State).setReg vf (flagOf (s.drawn x y n).collided)).advance
  | .skp x _ => (s.skipIf (s.keyHeld (s.reg x))).advance
  | .sknp x _ => (s.skipIf (!s.keyHeld (s.reg x))).advance
  | .ldVxDT x _ => (s.setReg x s.DT).advance
  | .ldKey x _ => ({ s with halt := .waitKey x } : State).advance
  | .ldDT x => ({ s with DT := s.reg x } : State).advance
  | .ldST x _ => ({ s with ST := s.reg x } : State).advance
  | .addI x _ => (s.setI (s.I + zext16 (s.reg x))).advance
  | .ldF x _ => (s.setI (glyphAddr (s.reg x))).advance
  | .ldB x _ => (s.writeBytes (s.dataAddr 0) (decimalDigits (s.reg x))).advance
  | .storeRegs x => (s.writeBytes (s.dataAddr 0) (s.regBlock x)).advance
  | .loadRegs x => (s.loadRegBlock x).advance

/-! ### `exec` is the check, then the rule -/

section
variable {i : Instr} {s : State}

/-- An instruction whose check passes completes. -/
theorem exec_of_ownCheck_none (h : ownCheck i s = none) : exec i s = .next (completed i s) := by
  cases i with
  | ret | call | drw | ldF | ldB | storeRegs | loadRegs => exact if_neg (by simpa [ownCheck] using h)
  | _ => rfl

/-- An instruction whose check fails records the fault, with its own opcode, and does nothing else (R222). -/
theorem exec_of_ownCheck_some {c : FaultCode} {n : Option Word} (h : ownCheck i s = some (c, n)) :
    exec i s = .next (s.raise c (some (encode i)) n) := by
  cases i with
  | ret | call | drw | ldF | ldB | storeRegs | loadRegs =>
    simp only [ownCheck, Option.ite_none_right_eq_some, Option.some.injEq, Prod.mk.injEq] at h
    obtain ⟨hcheck, rfl, rfl⟩ := h
    exact if_pos hcheck
  | _ => cases h

/-- What an instruction answers, in its two cases. -/
theorem exec_cases (i : Instr) (s : State) :
    (ownCheck i s = none ∧ exec i s = .next (completed i s)) ∨
    (∃ c n, ownCheck i s = some (c, n) ∧ exec i s = .next (s.raise c (some (encode i)) n)) := by
  cases h : ownCheck i s with
  | none => exact .inl ⟨rfl, exec_of_ownCheck_none h⟩
  | some p => exact .inr ⟨p.1, p.2, rfl, exec_of_ownCheck_some h⟩

/-- A failed check is one trap (R222). -/
theorem trapsWith_of_ownCheck {c : FaultCode} {n : Option Word} (h : ownCheck i s = some (c, n)) :
    TrapsWith i s c n := exec_of_ownCheck_some h

end

/-! ### Frames of the updates (spec/10_state.md R23) -/

section
variable {s t u : State}

/-- Two changes one after the other change what either changes. -/
theorem KeepsAllBut.trans {ps qs : List Part} (hst : KeepsAllBut ps s t) (htu : KeepsAllBut qs t u) :
    KeepsAllBut (ps ++ qs) s u := by
  intro p hp
  obtain ⟨hps, hqs⟩ := not_or.1 (mt List.mem_append.2 hp)
  have h1 := hst p hps
  have h2 := htu p hqs
  cases p with
  | V | mem => exact fun x => (h2 x).trans (h1 x)
  | _ => exact Eq.trans h2 h1

variable (s)

theorem setReg_keepsAllBut_V (x : Nibble) (v : Byte) : KeepsAllBut [.V] s (s.setReg x v) := by
  intro p hp
  cases p with
  | V => exact absurd hp (by decide)
  | mem => exact fun _ => rfl
  | _ => rfl

theorem loadRegBlock_keepsAllBut_V (x : Nibble) : KeepsAllBut [.V] s (s.loadRegBlock x) := by
  intro p hp
  cases p with
  | V => exact absurd hp (by decide)
  | _ => simp [Part.Kept]

theorem advance_keepsAllBut_pc : KeepsAllBut [.pc] s s.advance := jumpTo_keepsAllBut_pc s _

theorem popReturn_keepsAllBut_pc_sp : KeepsAllBut [.pc, .sp] s s.popReturn := by
  intro p hp
  cases p with
  | pc | sp => exact absurd hp (by decide)
  | V | mem => exact fun _ => rfl
  | _ => rfl

theorem pushAndJump_keepsAllBut_pc_sp_stack (a : Word) : KeepsAllBut [.pc, .sp, .stack] s (s.pushAndJump a) := by
  intro p hp
  cases p with
  | pc | sp | stack => exact absurd hp (by decide)
  | V | mem => exact fun _ => rfl
  | _ => rfl

theorem drawByte_keepsAllBut_draws : KeepsAllBut [.draws] s s.drawByte.2 := by
  intro p hp
  cases p with
  | draws => exact absurd hp (by decide)
  | V | mem => exact fun _ => rfl
  | _ => rfl

theorem writeBytes_keepsAllBut_mem (a : Nat) (bs : List Byte) : KeepsAllBut [.mem] s (s.writeBytes a bs) := by
  intro p hp
  cases p with
  | mem => exact absurd hp (by decide)
  | V => exact fun _ => rfl
  | _ => rfl

theorem setHalt_keepsAllBut_halt (h : Halt) : KeepsAllBut [.halt] s { s with halt := h } := by
  intro p hp
  cases p with
  | halt => exact absurd hp (by decide)
  | V | mem => exact fun _ => rfl
  | _ => rfl

theorem setDisp_keepsAllBut_disp (d : Vector (Vector Bool 64) 32) : KeepsAllBut [.disp] s { s with disp := d } := by
  intro p hp
  cases p with
  | disp => exact absurd hp (by decide)
  | V | mem => exact fun _ => rfl
  | _ => rfl

theorem raise_keepsAllBut_fault (c : FaultCode) (o n : Option Word) : KeepsAllBut [.fault] s (s.raise c o n) := by
  intro p hp
  cases p with
  | fault => exact absurd hp (by decide)
  | V | mem => exact fun _ => rfl
  | _ => rfl

theorem setFlagThenReg_keepsAllBut_V_pc (f : Byte) (x : Nibble) (v : State → Byte) :
    KeepsAllBut [.V, .pc] s (s.setFlagThenReg f x v) :=
  ((setReg_keepsAllBut_V s vf f).trans (setReg_advance_keepsAllBut_V_pc _ x _)).mono (by decide)

end

/-! ### What a completed instruction leaves unchanged -/

section
variable (i : Instr) (s : State)

/-- A completed instruction changes the parts of its footprint only, and the fault record never. -/
theorem completed_keepsAllBut : KeepsAllBut ((footprint i).filter (· ≠ .fault)) s (completed i s) := by
  cases i with
  | sys | jp | jpV0 => exact jumpTo_keepsAllBut_pc s _
  | seImm | sneImm | seReg | sneReg | skp | sknp => exact skipIf_advance_keepsAllBut_pc s _
  | ldImm | addImm | ldReg | orReg | andReg | xorReg | ldVxDT => exact setReg_advance_keepsAllBut_V_pc s _ _
  | addReg | subReg | shr | subnReg | shl => exact setFlagThenReg_keepsAllBut_V_pc s _ _ _
  | ldI | addI | ldF => exact setI_advance_keepsAllBut_I_pc s _
  | ldB | storeRegs => exact (writeBytes_keepsAllBut_mem s _ _).trans (advance_keepsAllBut_pc _)
  | loadRegs => exact (loadRegBlock_keepsAllBut_V s _).trans (advance_keepsAllBut_pc _)
  | ldKey => exact (setHalt_keepsAllBut_halt s _).trans (advance_keepsAllBut_pc _)
  | ldDT => exact setDT_advance_keepsAllBut_DT_pc s _
  | ldST => exact setST_advance_keepsAllBut_ST_pc s _
  | cls => exact setDisp_advance_keepsAllBut_disp_pc s _
  | drw => exact (setDisp_keepsAllBut_disp s _).trans (setReg_advance_keepsAllBut_V_pc _ _ _)
  | rnd => exact ((drawByte_keepsAllBut_draws s).trans (setReg_advance_keepsAllBut_V_pc _ _ _)).mono (by simp [footprint])
  | ret => exact ((popReturn_keepsAllBut_pc_sp s).trans (advance_keepsAllBut_pc _)).mono (by decide)
  | call => exact pushAndJump_keepsAllBut_pc_sp_stack s _

/-- A part outside the footprint is kept. -/
theorem completed_kept {p : Part} (hp : p ∉ footprint i) : p.Kept s (completed i s) :=
  completed_keepsAllBut i s p fun hin => hp (List.mem_of_mem_filter hin)

/-- No instruction that completes touches the fault record. -/
@[simp] theorem completed_fault : (completed i s).fault = s.fault :=
  completed_keepsAllBut i s .fault (by simp)

/-- No instruction changes the font (log entry 1). -/
@[simp] theorem completed_font : (completed i s).font = s.font :=
  completed_kept i s (p := .font) (by cases i <;> simp [footprint])

/-- Only CALL writes the stack (spec/10_state.md R26). -/
theorem completed_stack (h : ∀ nnn, i ≠ .call nnn) : (completed i s).stack = s.stack :=
  completed_kept i s (p := .stack) (by
    cases i with
    | call nnn => exact absurd rfl (h nnn)
    | _ => simp [footprint])

/-- Memory is as it was, or a block of bytes has been written (R65). -/
theorem completed_mem :
    (completed i s).mem = s.mem ∨ ∃ a bs, (completed i s).mem = Memory.writeBlock s.font s.mem a bs := by
  cases i with
  | ldB | storeRegs => exact .inr ⟨_, _, rfl⟩
  | seImm | sneImm | seReg | sneReg | skp | sknp => exact .inl (by rw [completed, advance_mem, skipIf_mem])
  | loadRegs => exact .inl (by rw [completed, advance_mem, loadRegBlock_mem])
  | _ => exact .inl rfl

end

end Sys2Proof.Machine
end

section
/-! Rules over all 35 instructions (spec/10_state.md R22, R23, R29; spec/30_encoding.md R84; spec/40_control_flow.md R102;
spec/60_exceptions.md R221, R222), each derived from the two cases of `exec`. Settles O17, O20, O21, O27, O28, O29 and
O30. -/

namespace Sys2Proof.Machine

/-! ### Faults: entry and conditions -/

/-- An instruction that records a fault failed its own check. -/
theorem ownCheck_some_of_fault {i : Instr} {s t : State} (hs : s.fault = none) (h : exec i s = .next t)
    (ht : t.fault ≠ none) : ∃ c n, ownCheck i s = some (c, n) ∧ t = s.raise c (some (encode i)) n := by
  obtain ⟨-, hexec⟩ | ⟨c, n, hcheck, hexec⟩ := exec_cases i s
  · obtain rfl := next_inj.1 (hexec.symm.trans h)
    exact absurd ((completed_fault i s).trans hs) ht
  · exact ⟨c, n, hcheck, (next_inj.1 (hexec.symm.trans h)).symm⟩

/-- An instruction that records no fault completed. -/
theorem completed_of_no_fault {i : Instr} {s t : State} (h : exec i s = .next t) (ht : t.fault = none) :
    ownCheck i s = none ∧ t = completed i s := by
  obtain ⟨hcheck, hexec⟩ | ⟨c, n, -, hexec⟩ := exec_cases i s
  · exact ⟨hcheck, (next_inj.1 (hexec.symm.trans h)).symm⟩
  · obtain rfl := next_inj.1 (hexec.symm.trans h)
    cases ht

/-- Settles O20: the fault is that of the instruction's own check, which is recorded and nothing else. -/
theorem faultEntryChangesOnlyTheRecord : Obligations.FaultEntryChangesOnlyTheRecord := by
  intro i s t hs h ht
  obtain ⟨c, n, -, rfl⟩ := ownCheck_some_of_fault hs h ht
  exact ⟨c, n, raise_spec s c _ n⟩

/-- Settles O21: the seven instructions that have a check, and what a failed one says. -/
theorem onlyListedInstructionsFault : Obligations.OnlyListedInstructionsFault := by
  intro i s t hs h ht
  obtain ⟨c, n, hcheck, -⟩ := ownCheck_some_of_fault hs h ht
  cases i with
  | ret | call | ldF =>
    simp only [ownCheck, Option.ite_none_right_eq_some] at hcheck
    simpa using hcheck.1
  | drw | ldB | storeRegs | loadRegs =>
    simp only [ownCheck, Option.ite_none_right_eq_some, blockOutOfBounds_eq_true] at hcheck
    simp
    omega
  | _ => cases hcheck

/-! ### Frames -/

/-- A check that can fail belongs to an instruction whose footprint lists the fault record. -/
theorem fault_mem_footprint {i : Instr} {s : State} {p : FaultCode × Option Word} (h : ownCheck i s = some p) :
    Part.fault ∈ footprint i := by
  cases i with
  | ret | call | drw | ldF | ldB | storeRegs | loadRegs => simp [footprint]
  | _ => cases h

/-- Settles O27: a completed instruction keeps all but its footprint, a fault all but the record. -/
theorem instructionsChangeOnlyTheirFootprint : Obligations.InstructionsChangeOnlyTheirFootprint := by
  intro i s t h
  obtain ⟨-, hexec⟩ | ⟨c, n, hcheck, hexec⟩ := exec_cases i s <;> obtain rfl := next_inj.1 (hexec.symm.trans h)
  · exact (completed_keepsAllBut i s).mono fun p hp => List.mem_of_mem_filter hp
  · exact (raise_keepsAllBut_fault s c _ n).mono (by simpa using fault_mem_footprint hcheck)

/-- The flag and the destination are the only registers written. -/
theorem reg_setFlagThenReg_ne (s : State) {x r : Nibble} (f : Byte) (v : State → Byte) (hx : r ≠ x) (hvf : r ≠ vf) :
    (s.setFlagThenReg f x v).reg r = s.reg r := by
  rw [State.setFlagThenReg, reg_advance, reg_setReg_ne _ _ hx, reg_setReg_ne _ _ hvf]

/-- A completed instruction changes no register but its destinations (R22). -/
theorem reg_completed {i : Instr} {s : State} {r : Nibble} (h : writesRegister i r = false) :
    (completed i s).reg r = s.reg r := by
  cases i with
  | ldImm x | addImm x | ldReg x | orReg x | andReg x | xorReg x | ldVxDT x =>
    exact reg_setReg_ne s _ (beq_eq_false_iff_ne.1 h)
  | rnd x => exact reg_setReg_ne s.drawByte.2 _ (beq_eq_false_iff_ne.1 h)
  | addReg x | subReg x | shr x | subnReg x | shl x =>
    obtain ⟨hx, hvf⟩ := Bool.or_eq_false_iff.1 h
    exact reg_setFlagThenReg_ne s _ _ (beq_eq_false_iff_ne.1 hx) (beq_eq_false_iff_ne.1 hvf)
  | drw => exact reg_setReg_ne _ _ (beq_eq_false_iff_ne.1 h)
  | loadRegs x => rw [completed, reg_advance, reg_loadRegBlock, if_neg (of_decide_eq_false h)]
  | _ => exact completed_kept _ s (p := .V) (by simp [footprint]) r

/-- Settles O28: a completed instruction by its destinations, a fault because it writes no register. -/
theorem instructionsChangeOnlyTheirRegisters : Obligations.InstructionsChangeOnlyTheirRegisters := by
  intro i s t r h hr
  obtain ⟨-, hexec⟩ | ⟨c, n, -, hexec⟩ := exec_cases i s <;> obtain rfl := next_inj.1 (hexec.symm.trans h)
  · exact reg_completed hr
  · exact reg_raise s c _ n r

/-! ### The advance (R102, R103, R105) -/

/-- What a skip and its advance leave in pc, from the base the skip sets. -/
theorem skipIf_advance_pc_eq_base (s : State) (c : Bool) :
    (s.skipIf c).advance.pc = (if c then s.pc + 2 else s.pc) + 2 := by
  rw [advance_pc, skipIf_pc]

/-- A completed instruction that is advanced ends 2 past its base. -/
theorem completed_pc {i : Instr} {s : State} {base : Word} (h : advanceBase i s = some base) :
    (completed i s).pc = base + 2 := by
  cases i with
  | sys | jp | call | jpV0 => cases h
  | seImm | sneImm | seReg | sneReg =>
    obtain rfl := Option.some.inj h
    exact (skipIf_advance_pc_eq_base s _).trans (by simp)
  | skp => obtain rfl := Option.some.inj h; exact skipIf_advance_pc_eq_base s _
  | sknp x =>
    obtain rfl := Option.some.inj h
    exact (skipIf_advance_pc_eq_base s _).trans (by cases s.keyHeld (s.reg x) <;> rfl)
  | loadRegs =>
    obtain rfl := Option.some.inj h
    rw [completed, advance_pc, loadRegBlock_pc]
  | _ => obtain rfl := Option.some.inj h; rfl

/-- Settles O17: an instruction that ends with no fault completed, and its pc is then 2 past the base. -/
theorem completedInstructionsAdvanceByTwo : Obligations.CompletedInstructionsAdvanceByTwo := by
  intro i s t base _ h ht hbase
  obtain ⟨-, rfl⟩ := completed_of_no_fault h ht
  exact completed_pc hbase

/-! ### The sound timer (R29) -/

/-- No check reads ST. -/
theorem ownCheck_setST (i : Instr) (s : State) (v : Byte) : ownCheck i { s with ST := v } = ownCheck i s := by
  cases i <;> rfl

/-- A skip and its advance carry ST along. -/
theorem skipIf_advance_setST (s : State) (v : Byte) (c : Bool) :
    { (({ s with ST := v } : State).skipIf c).advance with ST := (s.skipIf c).advance.ST } = (s.skipIf c).advance := by
  cases c <;> rfl

/-- The block load reads no ST. -/
theorem loadRegBlock_setST (s : State) (x : Nibble) (v : Byte) :
    ({ s with ST := v } : State).loadRegBlock x = { s.loadRegBlock x with ST := v } := by
  simp only [State.loadRegBlock, State.readByte, State.dataAddr]

/-- From a state with another ST, a completed instruction differs at most in ST. -/
theorem completed_setST (i : Instr) (s : State) (v : Byte) :
    { completed i { s with ST := v } with ST := (completed i s).ST } = completed i s := by
  cases i with
  | seImm | sneImm | seReg | sneReg | skp | sknp => exact skipIf_advance_setST s v _
  | loadRegs => simp only [completed, loadRegBlock_setST, State.advance]
  | _ => rfl

/-- Settles O29: the check answers the same, a completed instruction differs at most in ST, and a fault keeps ST. -/
theorem soundTimerIsNeverRead : Obligations.SoundTimerIsNeverRead := by
  intro i s t v h
  obtain ⟨hcheck, hexec⟩ | ⟨c, n, hcheck, hexec⟩ := exec_cases i s <;> obtain rfl := next_inj.1 (hexec.symm.trans h)
  · exact ⟨_, exec_of_ownCheck_none ((ownCheck_setST i s v).trans hcheck), completed_setST i s v⟩
  · exact ⟨_, exec_of_ownCheck_some ((ownCheck_setST i s v).trans hcheck), rfl⟩

/-! ### Encodings with bits that are not examined (spec/30_encoding.md R84) -/

/-- The check reads no bit that the canonical form resets. -/
theorem ownCheck_canonical (i : Instr) (s : State) : ownCheck i.canonical s = ownCheck i s := by
  cases i <;> rfl

/-- The rule reads no bit that the canonical form resets. -/
theorem completed_canonical (i : Instr) (s : State) : completed i.canonical s = completed i s := by
  cases i <;> rfl

/-- Settles O30: both complete to one state, or both fail one check and differ in the recorded opcode alone. -/
theorem aliasesExecuteAsCanonical : Obligations.AliasesExecuteAsCanonical := by
  intro i s _
  obtain ⟨hcheck, hexec⟩ | ⟨c, n, hcheck, hexec⟩ := exec_cases i s
  · exact ⟨_, _, hexec, exec_of_ownCheck_none ((ownCheck_canonical i s).trans hcheck), by rw [completed_canonical],
      by rw [completed_canonical]⟩
  · exact ⟨_, _, hexec, exec_of_ownCheck_some ((ownCheck_canonical i s).trans hcheck), rfl, rfl⟩

end Sys2Proof.Machine
end

section
/-! The instruction cycle (spec/20_memory.md R57; spec/40_control_flow.md R100, R101; spec/60_exceptions.md R226, R227):
which case a given state takes, and what `step` and `execute` can do, said once. Settles O11 to O16 and O39. -/

namespace Sys2Proof.Machine

section
variable {s : State} {op : Word} {i : Instr}

/-! ### Fetch (R57) -/

theorem fetch_of_outOfBounds (h : s.pc.toNat > 0xFFE) : fetch s = .error .fetchOutOfBounds := if_pos h

theorem fetch_of_misaligned (hb : s.pc.toNat ≤ 0xFFE) (hodd : s.pc.toNat % 2 = 1) :
    fetch s = .error .fetchMisaligned := (if_neg (by omega)).trans (if_pos hodd)

theorem fetch_of_fetchable (h : Fetchable s.pc) :
    fetch s = .ok (opcodeOfBytes (s.readByte s.pc.toNat) (s.readByte (s.pc.toNat + 1))) := by
  obtain ⟨hbound, heven⟩ := h
  exact (if_neg (by omega)).trans (if_neg (by omega))

/-- Settles O11: the three cases of the fetch, and the two bytes of the opcode it makes. -/
theorem fetchIsGuardedAndBigEndian : Obligations.FetchIsGuardedAndBigEndian := fun _ =>
  ⟨fetch_of_outOfBounds, fetch_of_misaligned,
   fun h => ⟨_, fetch_of_fetchable h, high_opcodeOfBytes _ _, low_opcodeOfBytes _ _⟩⟩

/-! ### `step` and `execute`, case by case (R100, R101) -/

theorem step_of_not_running (h : ¬s.Running) : step s = .next s := by
  obtain ⟨-, hstep⟩ | ⟨hr, -⟩ | ⟨hr, -⟩ := stepCycle_cases s
  · exact hstep
  · exact absurd hr h
  · exact absurd hr h

theorem executeOp_of_not_running (h : ¬s.Running) : executeOp op s = .next s := by
  obtain ⟨-, hexec⟩ | ⟨hr, -⟩ | ⟨hr, -⟩ := executeOp_cases op s
  · exact hexec
  · exact absurd hr h
  · exact absurd hr h

theorem step_of_fetch_error {c : FaultCode} (hr : s.Running) (h : fetch s = .error c) :
    step s = .next (s.raise c none none) := by
  obtain ⟨hfault, hhalt⟩ := hr
  simp [step, stepCycle, hfault, hhalt, h]

theorem step_of_fetch_ok (hr : s.Running) (h : fetch s = .ok op) : step s = executeOp op s := by
  obtain ⟨hfault, hhalt⟩ := hr
  simp [step, stepCycle, hfault, hhalt, h]

theorem executeOp_of_decode_ok (hr : s.Running) (h : decode op = .ok i) : executeOp op s = exec i s := by
  obtain ⟨hfault, hhalt⟩ := hr
  simp [executeOp, hfault, hhalt, h]

theorem executeOp_of_decode_error {e : DecodeError} (hr : s.Running) (h : decode op = .error e) :
    executeOp op s = .next (s.raise .illegalOpcode (some op) none) := by
  obtain ⟨hfault, hhalt⟩ := hr
  simp [executeOp, hfault, hhalt, h]

/-- Two bytes that decode, with none left over, are an opcode that decodes. -/
theorem decode_of_decodeBytes {hi lo : Byte} (h : decodeBytes [hi, lo] = .ok (i, [])) :
    decode (opcodeOfBytes hi lo) = .ok i := by
  cases hd : decode (opcodeOfBytes hi lo) with
  | error e => simp [decodeBytes, hd] at h
  | ok j =>
    simp only [decodeBytes, hd, Except.ok.injEq, Prod.mk.injEq, and_true] at h
    rw [h]

/-- A step of a running state, at bytes that decode, is the instruction's. -/
theorem step_eq_exec (hr : s.Running) (hf : Fetchable s.pc)
    (hb : decodeBytes [s.readByte s.pc.toNat, s.readByte (s.pc.toNat + 1)] = .ok (i, [])) : step s = exec i s :=
  (step_of_fetch_ok hr (fetch_of_fetchable hf)).trans (executeOp_of_decode_ok hr (decode_of_decodeBytes hb))

end

/-- Settles O12: fetch, decode and nothing around `exec`. -/
theorem stepRunsTheDecodedInstruction : Obligations.StepRunsTheDecodedInstruction := fun _ _ => step_eq_exec

/-- Settles O13: the two answers of the decoder. -/
theorem executeRunsTheSuppliedOpcode : Obligations.ExecuteRunsTheSuppliedOpcode := fun _ _ hr =>
  ⟨fun _ => executeOp_of_decode_ok hr, fun _ => executeOp_of_decode_error hr⟩

/-- Settles O15: the bounds fault, the alignment fault and the illegal opcode, each where the ones before it do not
hold. -/
theorem stepTrapsInPriorityOrder : Obligations.StepTrapsInPriorityOrder := by
  intro s hr
  refine ⟨fun hb => step_of_fetch_error hr (fetch_of_outOfBounds hb),
    fun hb hodd => step_of_fetch_error hr (fetch_of_misaligned hb hodd), ?_⟩
  rintro hf op rfl hdec
  exact (step_of_fetch_ok hr (fetch_of_fetchable hf)).trans (executeOp_of_decode_error hr hdec)

/-- Settles O39: the jump writes pc with the value it has. -/
theorem selfJumpLeavesTheState : Obligations.SelfJumpLeavesTheState := by
  intro s nnn hr hf hpc hb
  have htarget : addrOperand nnn = s.pc := BitVec.eq_of_toNat_eq ((addrOperand_toNat nnn).trans hpc)
  rw [step_eq_exec hr hf hb, exec_jp, htarget]
  rfl

/-! ### Status (R227) -/

section
variable {s t : State}

theorem hostStep_of_step (h : step s = .next t) : hostStep s = (t, runStatus s t) := by
  rw [hostStep, h, stateAfter_next]

theorem hostExecute_of_executeOp {op : Word} (h : executeOp op s = .next t) :
    hostExecute op s = (t, runStatus s t) := by
  rw [hostExecute, h, stateAfter_next]

theorem runStatus_of_fault {f : FaultRecord} (h : s.fault = some f) : runStatus s t = .faulted f.code := by
  simp [runStatus, h]

theorem runStatus_of_wait {r : Nibble} (hf : s.fault = none) (hh : s.halt = .waitKey r) : runStatus s t = .halted := by
  simp [runStatus, hf, hh]

end

/-- Settles O14: a state that does not run is left as it is, and the status names why; one that runs is answered by what
the step recorded. -/
theorem stepReportsAndHoldsWhileFaultedOrWaiting : Obligations.StepReportsAndHoldsWhileFaultedOrWaiting := by
  intro s op
  refine ⟨fun f hf => ?_, fun r hf hh => ?_, ?_⟩
  · have hnr : ¬s.Running := fun hr => by simp [hr.1] at hf
    refine ⟨step_of_not_running hnr, executeOp_of_not_running hnr, ?_, ?_⟩
    · rw [hostStep_of_step (step_of_not_running hnr), runStatus_of_fault hf]
    · rw [hostExecute_of_executeOp (executeOp_of_not_running hnr), runStatus_of_fault hf]
  · have hnr : ¬s.Running := fun hr => by simp [hr.2] at hh
    refine ⟨step_of_not_running hnr, executeOp_of_not_running hnr, ?_, ?_⟩
    · rw [hostStep_of_step (step_of_not_running hnr), runStatus_of_wait hf hh]
    · rw [hostExecute_of_executeOp (executeOp_of_not_running hnr), runStatus_of_wait hf hh]
  · rintro ⟨hfault, hhalt⟩ t ht
    rw [hostStep_of_step ht]
    cases htf : t.fault <;> simp [runStatus, hfault, hhalt, htf]

/-! ### What a step and an `execute` can do -/

/-- The state an operation of the cycle leaves: the old one; or, from a running state, the old one with a well-formed
record, or that of an instruction that completed. -/
inductive CycleOutcome (s : State) : State → Prop
  | held : CycleOutcome s s
  | faulted (c : FaultCode) (o n : Option Word) (hr : s.Running)
      (hwf : (⟨c, s.pc, o, n⟩ : FaultRecord).wellFormed = true) : CycleOutcome s (s.raise c o n)
  | ran (i : Instr) (hr : s.Running) (hcheck : ownCheck i s = none) : CycleOutcome s (completed i s)

/-- What an instruction's own check records is well formed (R221). -/
theorem wellFormed_of_ownCheck {i : Instr} {s : State} {c : FaultCode} {n : Option Word} (pc op : Word)
    (h : ownCheck i s = some (c, n)) : (⟨c, pc, some op, n⟩ : FaultRecord).wellFormed = true := by
  cases i with
  | ret | call =>
    simp only [ownCheck, Option.ite_none_right_eq_some, Option.some.injEq, Prod.mk.injEq] at h
    obtain ⟨-, rfl, rfl⟩ := h
    rfl
  | drw | ldB | storeRegs | loadRegs =>
    simp only [ownCheck, Option.ite_none_right_eq_some, Option.some.injEq, Prod.mk.injEq] at h
    obtain ⟨-, rfl, rfl⟩ := h
    simp [FaultRecord.wellFormed, firstBadAddr_toNat]
  | ldF x =>
    simp only [ownCheck, Option.ite_none_right_eq_some, Option.some.injEq, Prod.mk.injEq] at h
    obtain ⟨hx, rfl, rfl⟩ := h
    have := (s.reg x).isLt
    simp [FaultRecord.wellFormed, zext16]
    omega
  | _ => cases h

/-- What a fetch records is well formed (R57, R222). -/
theorem wellFormed_of_fetch_error {s : State} {c : FaultCode} (h : fetch s = .error c) :
    (⟨c, s.pc, none, none⟩ : FaultRecord).wellFormed = true := by
  obtain ⟨hb, hf⟩ | ⟨-, hodd, hf⟩ | ⟨-, hf⟩ := fetch_cases s <;> cases hf.symm.trans h
  · simpa [FaultRecord.wellFormed] using hb
  · simpa [FaultRecord.wellFormed] using hodd

/-- `execute` of any opcode. -/
theorem executeOp_outcome (op : Word) (s : State) : ∃ t, executeOp op s = .next t ∧ CycleOutcome s t := by
  obtain ⟨-, h⟩ | ⟨hr, -, h⟩ | ⟨hr, i, -, h⟩ := executeOp_cases op s
  · exact ⟨s, h, .held⟩
  · exact ⟨_, h, .faulted _ _ _ hr rfl⟩
  · obtain ⟨hcheck, hexec⟩ | ⟨c, n, hcheck, hexec⟩ := exec_cases i s
    · exact ⟨_, h.trans hexec, .ran i hr hcheck⟩
    · exact ⟨_, h.trans hexec, .faulted _ _ _ hr (wellFormed_of_ownCheck _ _ hcheck)⟩

/-- A step: at a pc that can be fetched from it is `execute` of the opcode there; at any other it keeps pc and stack. -/
theorem step_outcome (s : State) :
    ∃ t, step s = .next t ∧ CycleOutcome s t ∧ (Fetchable s.pc ∨ t.pc = s.pc ∧ t.stack = s.stack) := by
  by_cases hr : s.Running
  · by_cases hf : Fetchable s.pc
    · obtain ⟨t, hexec, hout⟩ := executeOp_outcome _ s
      exact ⟨t, (step_of_fetch_ok hr (fetch_of_fetchable hf)).trans hexec, hout, .inl hf⟩
    · obtain ⟨-, herr⟩ | ⟨-, -, herr⟩ | ⟨hf', -⟩ := fetch_cases s
      · exact ⟨_, step_of_fetch_error hr herr, .faulted _ _ _ hr (wellFormed_of_fetch_error herr), .inr ⟨rfl, rfl⟩⟩
      · exact ⟨_, step_of_fetch_error hr herr, .faulted _ _ _ hr (wellFormed_of_fetch_error herr), .inr ⟨rfl, rfl⟩⟩
      · exact absurd hf' hf
  · exact ⟨s, step_of_not_running hr, .held, .inr ⟨rfl, rfl⟩⟩

/-- Settles O16: whatever a step does, it leaves a state. -/
theorem everyStepAnswersANextState : Obligations.EveryStepAnswersANextState := fun s =>
  (step_outcome s).imp fun _ h => h.1

end Sys2Proof.Machine
end

section
/-! Host operations and invariants (spec/10_state.md R25 to R27, R39; spec/60_exceptions.md R222, R224, R230, R233;
spec/70_reset_and_hazards.md R260, R262): what the operations that run no instruction leave as it was, and what every
operation keeps. Settles O22 to O26. -/

namespace Sys2Proof.Machine

/-! ### Operations that run no instruction and do not reset -/

/-- `t` is `s` with pc, stack and fault record as they were, memory still in canonical form, and no key-wait entered. -/
structure QuietChange (s t : State) : Prop where
  pc : t.pc = s.pc
  stack : t.stack = s.stack
  fault : t.fault = s.fault
  halt : t.halt = s.halt ∨ t.halt = .notHalted
  mem_wf : Memory.wf s.font s.mem → Memory.wf t.font t.mem

theorem QuietChange.refl (s : State) : QuietChange s s := ⟨rfl, rfl, rfl, .inl rfl, id⟩

theorem loadProgram_quietChange (bytes : List Byte) (s : State) : QuietChange s (loadProgram bytes s).1 := by
  unfold loadProgram
  split_ifs
  · exact .refl s
  · exact ⟨rfl, rfl, rfl, .inl rfl, Memory.wf_writeBlock s.font bytes s.mem 0x200⟩

theorem tickTimers_quietChange (s : State) : QuietChange s (tickTimers s).1 := ⟨rfl, rfl, rfl, .inl rfl, id⟩

/-- Ending a key-wait writes a register and `halt` (R234). -/
theorem resolveWait_quietChange (k : Nat) (s : State) : QuietChange s (resolveWait k s) := by
  unfold resolveWait
  split
  · exact ⟨rfl, rfl, rfl, .inr rfl, id⟩
  · exact .refl s

theorem deliverKeyEvent_quietChange (k : Nat) (pressed : Bool) (s : State) :
    QuietChange s (deliverKeyEvent k pressed s).1 := by
  unfold deliverKeyEvent
  split_ifs
  · exact .refl s
  · obtain ⟨hpc, hstack, hfault, hhalt, hmem⟩ := resolveWait_quietChange k { s with keys := pressKey s.keys k }
    exact ⟨hpc, hstack, hfault, hhalt, hmem⟩
  · exact ⟨rfl, rfl, rfl, .inl rfl, id⟩

/-! ### Step and execute as host operations -/

theorem hostStep_outcome (s : State) :
    CycleOutcome s (hostStep s).1 ∧ (Fetchable s.pc ∨ (hostStep s).1.pc = s.pc ∧ (hostStep s).1.stack = s.stack) := by
  obtain ⟨t, hstep, hout⟩ := step_outcome s
  rw [hostStep_of_step hstep]
  exact hout

theorem hostExecute_outcome (op : Word) (s : State) : CycleOutcome s (hostExecute op s).1 := by
  obtain ⟨t, hexec, hout⟩ := executeOp_outcome op s
  rw [hostExecute_of_executeOp hexec]
  exact hout

/-! ### A fault is sticky (R224) -/

/-- From a faulted state the cycle does nothing. -/
theorem CycleOutcome.fault_kept {s t : State} {f : FaultRecord} (h : CycleOutcome s t) (hf : s.fault = some f) :
    t.fault = some f := by
  cases h with
  | held => exact hf
  | faulted _ _ _ hr => exact absurd (hr.1.symm.trans hf) (by simp)
  | ran _ hr => exact absurd (hr.1.symm.trans hf) (by simp)

/-- Only `reset` clears or changes a record. -/
theorem applyOp_fault_kept {o : HostOp} {s : State} {f : FaultRecord} (ho : o ≠ .reset) (hf : s.fault = some f) :
    (applyOp o s).1.fault = some f := by
  cases o with
  | reset => exact absurd rfl ho
  | loadProgram bytes => exact (loadProgram_quietChange bytes s).fault.trans hf
  | step => exact (hostStep_outcome s).1.fault_kept hf
  | execute op => exact (hostExecute_outcome op s).fault_kept hf
  | tickTimers => exact (tickTimers_quietChange s).fault.trans hf
  | deliverKeyEvent k pressed => exact (deliverKeyEvent_quietChange k pressed s).fault.trans hf

/-- Settles O22, by induction on the run: each operation but `reset` keeps the record. -/
theorem faultPersistsUntilReset : Obligations.FaultPersistsUntilReset := fun ops s f hreset hf =>
  runOps_induction (P := fun t => t.fault = some f) (ok := (· ≠ .reset)) (fun _ _ ho h => applyOp_fault_kept ho h) ops s
    (fun _ ho e => hreset (e ▸ ho)) hf

/-! ### The core invariant -/

section
variable {s t : State}

theorem CoreInv.of_quietChange (h : CoreInv s) (hq : QuietChange s t) : CoreInv t where
  mem_wf := hq.mem_wf h.mem_wf
  fault_excludes_wait hf := by
    obtain hhalt | hhalt := hq.halt
    · exact hhalt.trans (h.fault_excludes_wait (hq.fault ▸ hf))
    · exact hhalt
  fault_record f hf := by
    obtain ⟨hwf, hpc⟩ := h.fault_record f (hq.fault.symm.trans hf)
    exact ⟨hwf, hpc.trans hq.pc.symm⟩
  stack_zero := by simpa [hq.stack] using h.stack_zero

/-- CALL writes the entry above sp, which is not entry 0 below the last level. -/
theorem completed_stack_zero {i : Instr} (hcheck : ownCheck i s = none) : (completed i s).stack[0] = s.stack[0] := by
  by_cases hcall : ∃ nnn, i = .call nnn
  · obtain ⟨nnn, rfl⟩ := hcall
    have hsp : s.sp ≠ 15 := by simpa [ownCheck] using hcheck
    have htop : (s.sp + 1).val ≠ 0 := by omega
    simp [completed, htop]
  · simp [completed_stack i s fun nnn e => hcall ⟨nnn, e⟩]

theorem completed_mem_wf (i : Instr) (h : Memory.wf s.font s.mem) :
    Memory.wf (completed i s).font (completed i s).mem := by
  rw [completed_font]
  obtain hmem | ⟨a, bs, hmem⟩ := completed_mem i s <;> rw [hmem]
  · exact h
  · exact Memory.wf_writeBlock s.font bs s.mem a h

/-- Whatever the cycle does keeps the core invariant. -/
theorem CoreInv.of_cycleOutcome (h : CoreInv s) (hout : CycleOutcome s t) : CoreInv t := by
  cases hout with
  | held => exact h
  | faulted c o n hr hwf =>
    exact ⟨h.mem_wf, fun _ => hr.2, by rintro f ⟨⟩; exact ⟨hwf, rfl⟩, h.stack_zero⟩
  | ran i hr hcheck =>
    have hnone : (completed i s).fault = none := (completed_fault i s).trans hr.1
    exact ⟨completed_mem_wf i h.mem_wf, fun hf => absurd hnone hf, fun f hf => (by cases hnone.symm.trans hf),
      (completed_stack_zero hcheck).trans h.stack_zero⟩

/-- Settles O23: memory lists nothing, pc is 0x200, every return address is 0. -/
theorem resetMeetsTheInvariant : Obligations.ResetMeetsTheInvariant := fun font =>
  { core := ⟨Memory.wf_nil font, fun _ => rfl, by simp [State.resetWith], by simp [State.resetWith]⟩
    pc_bound := by simp [State.resetWith]
    return_addr := fun j => by simp [State.resetWith, Fetchable] }

/-- The host's reset is the reset state but for the draw counter, which no invariant reads. -/
theorem hostReset_fetchInv (s : State) : FetchInv (hostReset s).1 := by
  obtain ⟨⟨hmem, hwait, hrecord, hstack⟩, hpc, hreturn⟩ := resetMeetsTheInvariant s.font
  exact ⟨⟨hmem, hwait, hrecord, hstack⟩, hpc, hreturn⟩

end

/-- Settles O25, one case per operation. -/
theorem everyHostOperationKeepsTheCoreInvariant : Obligations.EveryHostOperationKeepsTheCoreInvariant := by
  intro o s h
  cases o with
  | reset => exact (hostReset_fetchInv s).core
  | loadProgram bytes => exact h.of_quietChange (loadProgram_quietChange bytes s)
  | step => exact h.of_cycleOutcome (hostStep_outcome s).1
  | execute op => exact h.of_cycleOutcome (hostExecute_outcome op s)
  | tickTimers => exact h.of_quietChange (tickTimers_quietChange s)
  | deliverKeyEvent k pressed => exact h.of_quietChange (deliverKeyEvent_quietChange k pressed s)

/-! ### The invariant of fetched instructions -/

section
variable {i : Instr} {s t : State}

/-- The advance counts from pc, from the word after it, or from the popped return address. -/
theorem advanceBase_cases {base : Word} (h : advanceBase i s = some base) :
    base = s.pc ∨ base = s.pc + 2 ∨ base = s.stack[s.sp] := by
  cases i with
  | sys | jp | call | jpV0 => cases h
  | ret => exact .inr (.inr (Option.some.inj h).symm)
  | seImm | sneImm | seReg | sneReg | skp | sknp =>
    obtain rfl := Option.some.inj h
    split_ifs <;> simp
  | _ => exact .inl (Option.some.inj h).symm

/-- A transfer that is not advanced goes to `nnn`, or for JP V0 to `nnn` and a byte more (R104, R106, R107, R112). -/
theorem completed_pc_of_no_advance (h : advanceBase i s = none) : (completed i s).pc.toNat ≤ 0xFFF + 0xFF := by
  cases i with
  | sys nnn | jp nnn | call nnn =>
    have := nnn.isLt
    have hpc := addrOperand_toNat nnn
    simp [completed]
    omega
  | jpV0 nnn =>
    have := nnn.isLt
    have := (s.reg 0x0#4).isLt
    have hpc := addrOperand_toNat nnn
    simp [completed, zext16]
    omega
  | _ => cases h

/-- An instruction at an address that can be fetched from leaves pc within the bound of R25. -/
theorem completed_pc_le (h : FetchInv s) (hf : Fetchable s.pc) : (completed i s).pc.toNat ≤ 0x10FE := by
  cases hbase : advanceBase i s with
  | none => exact completed_pc_of_no_advance hbase
  | some base =>
    have hret := h.return_addr s.sp
    have hle : base.toNat ≤ 0x1000 := by
      obtain rfl | rfl | rfl := advanceBase_cases hbase
      · omega
      · rw [BitVec.toNat_add]; simp; omega
      · omega
    rw [completed_pc hbase, BitVec.toNat_add]
    simp
    omega

/-- CALL pushes the address it was fetched from; no other instruction writes the stack. -/
theorem completed_return_addr (h : FetchInv s) (hf : Fetchable s.pc) (j : Fin 16) :
    Fetchable (completed i s).stack[j] := by
  by_cases hcall : ∃ nnn, i = .call nnn
  · obtain ⟨nnn, rfl⟩ := hcall
    simp only [completed, pushAndJump_stack, Fin.getElem_fin, Vector.getElem_set]
    split_ifs
    · exact hf
    · exact h.return_addr j
  · rw [completed_stack i s fun nnn e => hcall ⟨nnn, e⟩]
    exact h.return_addr j

/-- A change that keeps pc, stack and the core invariant keeps the whole. -/
theorem FetchInv.of_core (h : FetchInv s) (hcore : CoreInv t) (hpc : t.pc = s.pc) (hstack : t.stack = s.stack) :
    FetchInv t :=
  ⟨hcore, hpc ▸ h.pc_bound, hstack ▸ h.return_addr⟩

theorem FetchInv.of_quietChange (h : FetchInv s) (hq : QuietChange s t) : FetchInv t :=
  h.of_core (h.core.of_quietChange hq) hq.pc hq.stack

/-- What the cycle does with a fetched instruction keeps the invariant. -/
theorem FetchInv.of_cycleOutcome (h : FetchInv s) (hout : CycleOutcome s t)
    (hfetch : Fetchable s.pc ∨ t.pc = s.pc ∧ t.stack = s.stack) : FetchInv t := by
  have hcore := h.core.of_cycleOutcome hout
  obtain hf | ⟨hpc, hstack⟩ := hfetch
  · cases hout with
    | held => exact h
    | faulted => exact h.of_core hcore rfl rfl
    | ran i => exact ⟨hcore, completed_pc_le h hf, completed_return_addr h hf⟩
  · exact h.of_core hcore hpc hstack

end

/-- Settles O24: a step holds, faults, or completes an instruction fetched at pc, and each keeps the invariant. -/
theorem stepKeepsTheInvariant : Obligations.StepKeepsTheInvariant := by
  intro s t h hstep
  obtain ⟨u, hu, hout, hfetch⟩ := step_outcome s
  obtain rfl := next_inj.1 (hu.symm.trans hstep)
  exact h.of_cycleOutcome hout hfetch

/-- One operation of a session, `execute` apart, keeps the invariant. -/
theorem applyOp_fetchInv {o : HostOp} {s : State} (ho : ∀ op, o ≠ .execute op) (h : FetchInv s) :
    FetchInv (applyOp o s).1 := by
  cases o with
  | reset => exact hostReset_fetchInv s
  | loadProgram bytes => exact h.of_quietChange (loadProgram_quietChange bytes s)
  | step => exact h.of_cycleOutcome (hostStep_outcome s).1 (hostStep_outcome s).2
  | execute op => exact absurd rfl (ho op)
  | tickTimers => exact h.of_quietChange (tickTimers_quietChange s)
  | deliverKeyEvent k pressed => exact h.of_quietChange (deliverKeyEvent_quietChange k pressed s)

/-- Settles O26, by induction on the session. -/
theorem sessionsKeepTheInvariant : Obligations.SessionsKeepTheInvariant := fun ops s hexec h =>
  runOps_induction (ok := fun o => ∀ op, o ≠ .execute op) (fun _ _ ho hs => applyOp_fetchInv ho hs) ops s
    (fun _ ho op e => hexec op (e ▸ ho)) h

end Sys2Proof.Machine
end

section
/-! Instructions one by one, each by the case of `exec` its hypothesis picks and the frame of what it completes to: traps
(spec/60_exceptions.md R221), control transfer (spec/40_control_flow.md R104, R105, R107, R112), keys
(spec/44_timers_keys.md R200, R201, R203) and the index register (spec/42_index_memory.md R161, R162). Settles O18, O19,
O32 to O35, O38, O45, O47, O48 and O56. -/

namespace Sys2Proof.Machine

/-- A byte widened to 16 bits keeps its value (spec/00_scope.md R10). -/
@[simp] theorem zext16_toNat (v : Byte) : (zext16 v).toNat = v.toNat := BitVec.toNat_setWidth_of_le (by decide)

/-! ### Traps -/

/-- Settles O18: the three checks on sp and on a glyph number. -/
theorem stackAndGlyphChecksTrap : Obligations.StackAndGlyphChecksTrap := fun s =>
  ⟨fun _ hsp => trapsWith_of_ownCheck (if_pos hsp), fun hsp => trapsWith_of_ownCheck (if_pos hsp),
   fun x _ hx => ⟨zext16 (s.reg x), zext16_toNat _, trapsWith_of_ownCheck (if_pos hx)⟩⟩

/-- Settles O19: each block's length against the bound; the address reported is one for all four. -/
theorem blockOutOfBoundsTraps : Obligations.BlockOutOfBoundsTraps := by
  intro s x y n h
  have hout (count : Nat) (hpos : 0 < count) (hlast : 0x1000 < s.I.toNat + count) : s.blockOutOfBounds count = true :=
    (blockOutOfBounds_eq_true s count).2 ⟨hpos, hlast⟩
  refine ⟨s.firstBadAddr, firstBadAddr_toNat s, fun hn hlast => ?_, fun hlast => ?_, fun hlast => ⟨?_, ?_⟩⟩
  · exact trapsWith_of_ownCheck (if_pos (hout n.toNat hn (by omega)))
  · exact trapsWith_of_ownCheck (if_pos (hout 3 (by omega) (by omega)))
  · exact trapsWith_of_ownCheck (if_pos (hout (x.toNat + 1) (by omega) (by omega)))
  · exact trapsWith_of_ownCheck (if_pos (hout (x.toNat + 1) (by omega) (by omega)))

/-! ### Control transfer -/

/-- A 12-bit address and a byte, added in 16 bits, do not wrap (R112). -/
theorem addrOperand_add_zext16_toNat (nnn : Addr) (v : Byte) :
    (addrOperand nnn + zext16 v).toNat = nnn.toNat + v.toNat := by
  have := nnn.isLt
  have := v.isLt
  rw [BitVec.toNat_add, addrOperand_toNat, zext16_toNat]
  omega

/-- Settles O32: both are one jump. -/
theorem sysAndJpV0SetPc : Obligations.SysAndJpV0SetPc := fun nnn s =>
  ⟨⟨_, exec_of_ownCheck_none (i := .sys nnn) rfl, addrOperand_toNat nnn, jumpTo_keepsAllBut_pc s _⟩,
   ⟨_, exec_of_ownCheck_none (i := .jpV0 nnn) rfl, addrOperand_add_zext16_toNat nnn _, jumpTo_keepsAllBut_pc s _⟩⟩

/-- CALL below the last level pushes and jumps (R107). -/
theorem exec_call {nnn : Addr} {s : State} (h : s.sp ≠ 15) :
    exec (.call nnn) s = .next (s.pushAndJump (addrOperand nnn)) := exec_of_ownCheck_none (if_neg h)

/-- RET above level 0 pops and advances (R105). -/
theorem exec_ret {s : State} (h : s.sp ≠ 0) : exec .ret s = .next s.popReturn.advance :=
  exec_of_ownCheck_none (if_neg h)

/-- The entry a push writes. -/
theorem pushAndJump_stack_top (s : State) (a : Word) : (s.pushAndJump a).stack[s.sp + 1] = s.pc := by simp

/-- A push writes no other entry. -/
theorem pushAndJump_stack_ne (s : State) (a : Word) {j : Fin 16} (h : j ≠ s.sp + 1) :
    (s.pushAndJump a).stack[j] = s.stack[j] := by
  have hne : (s.sp + 1).val ≠ j.val := fun e => h (Fin.ext e.symm)
  simp [hne]

/-- Settles O33: the push at the next entry, whose number does not wrap below the last level. -/
theorem callPushesItsOwnAddress : Obligations.CallPushesItsOwnAddress := by
  intro nnn s hsp
  refine ⟨_, exec_call hsp, ?_, pushAndJump_stack_top s _, fun j hj => pushAndJump_stack_ne s _ hj,
    addrOperand_toNat nnn, pushAndJump_keepsAllBut_pc_sp_stack s _⟩
  rw [pushAndJump_sp]
  omega

/-- Settles O34: the pop and the advance. -/
theorem retPopsTheReturnAddress : Obligations.RetPopsTheReturnAddress := by
  intro s hsp
  refine ⟨_, exec_ret hsp, rfl, ?_, completed_keepsAllBut .ret s⟩
  rw [advance_sp, popReturn_sp]
  omega

/-- Settles O35: the entry the RET pops is the one the CALL pushed, and sp goes up and down by one. -/
theorem retUndoesCall : Obligations.RetUndoesCall := by
  intro nnn s t u hsp hcall husp hustack
  obtain rfl := next_inj.1 ((exec_call hsp).symm.trans hcall)
  have hu : u.sp = s.sp + 1 := husp
  refine ⟨_, exec_ret (by rw [hu]; omega), ?_, ?_⟩
  · simp [hustack, hu]
  · simp [hu]

/-! ### Keys -/

/-- A held key's number is one of the sixteen (spec/10_state.md R32). -/
theorem keyHeld_iff (s : State) (v : Byte) :
    s.keyHeld v = true ↔ v.toNat ≤ 0xF ∧ s.keys.getLsbD v.toNat = true := by
  refine ⟨fun h => ⟨?_, h⟩, fun h => h.2⟩
  by_contra hgt
  rw [keyHeld_of_gt s v (by omega)] at h
  cases h

/-- Settles O38: SKP and SKNP decode in family E, and skip on `keyHeld` and on its negation. -/
theorem skipsOnAKey : Obligations.SkipsOnAKey := fun x h s =>
  ⟨familyEDecodes x h 0xE#4,
   skipsWhen_of_exec_eq (exec_of_ownCheck_none (i := .skp x h) rfl) (keyHeld_iff s _),
   familyEDecodes x h 0x1#4,
   skipsWhen_of_exec_eq (exec_of_ownCheck_none (i := .sknp x h) rfl) (by rw [← keyHeld_iff]; simp)⟩

/-- Settles O56: the wait is written beside the advance, and a state that waits does not run. -/
theorem ldKeyEntersTheWait : Obligations.LdKeyEntersTheWait := by
  intro x h s
  refine ⟨_, exec_of_ownCheck_none (i := .ldKey x h) rfl, rfl, rfl, completed_keepsAllBut (.ldKey x h) s,
    step_of_not_running ?_⟩
  rintro ⟨-, hhalt⟩
  cases hhalt

/-! ### RND and the index register -/

/-- Settles O45: one register write of the masked draw, from the state after the draw. -/
theorem rndMasksAFreshDraw : Obligations.RndMasksAFreshDraw := by
  intro x kk s
  have hreg : (completed (.rnd x kk) s).reg x = Config.randomByte s.draws &&& kk := reg_setReg_same s.drawByte.2 x _
  refine ⟨_, exec_of_ownCheck_none (i := .rnd x kk) rfl, hreg, fun b hb => ?_, rfl,
    fun y hy => reg_completed (by simpa [writesRegister] using hy), rfl, ?_⟩
  · rw [hreg, BitVec.getLsbD_and, hb, Bool.and_false]
  · exact completed_keepsAllBut (.rnd x kk) s

/-- Settles O47: the sum is `BitVec`'s, modulo 0x10000. -/
theorem addIDoesNotWrapAtTwelveBits : Obligations.AddIDoesNotWrapAtTwelveBits := by
  intro x h s
  refine ⟨_, exec_of_ownCheck_none (i := .addI x h) rfl, ?_, rfl, setI_advance_keepsAllBut_I_pc s _⟩
  simp [completed]

/-- Five times a hex digit does not wrap (R162). -/
theorem glyphAddr_toNat {d : Byte} (h : d.toNat ≤ 0xF) : (glyphAddr d).toNat = 5 * d.toNat := by
  rw [glyphAddr, BitVec.toNat_mul, zext16_toNat]
  simp
  omega

/-- Settles O48: a hex digit passes the check, and I is written with the glyph's address. -/
theorem ldFPointsAtTheGlyph : Obligations.LdFPointsAtTheGlyph := fun x h s hx =>
  ⟨_, exec_of_ownCheck_none (i := .ldF x h) (if_neg (by omega)), glyphAddr_toNat hx, rfl,
   setI_advance_keepsAllBut_I_pc s _⟩

end Sys2Proof.Machine
end

section
/-! Arithmetic with a flag (spec/41_alu.md R138 to R144): the flag goes to VF first, then the value to `V[x]`, read from the
registers as they then stand. What that order leaves is said once, for x below F and for x = F. Settles O41 to O44. -/

namespace Sys2Proof.Machine

/-- Subtraction modulo 256, with no borrow below 0 (R139). -/
theorem byte_sub_toNat (a b : Byte) : (a - b).toNat = (a.toNat + 256 - b.toNat) % 256 := by
  have := a.isLt
  have := b.isLt
  rw [BitVec.toNat_sub]
  omega

/-- Two writes of one register leave the second value. -/
theorem setReg_setReg_same (s : State) (x : Nibble) (v w : Byte) : (s.setReg x v).setReg x w = s.setReg x w := by
  simp [State.setReg]

section
variable {i : Instr} {s : State} {x : Nibble} {f : Byte} {v : State → Byte} {n m : Nat}

/-- With x below F the flag stays in VF beside the value. -/
theorem writesRegAndFlag_of_exec_eq (hexec : exec i s = .next (s.setFlagThenReg f x v)) (hx : x ≠ vf)
    (hv : (v (s.setReg vf f)).toNat = n) (hf : f.toNat = m) : WritesRegAndFlag i s x n m := by
  refine ⟨_, hexec, ?_, ?_, fun y hy => ?_, rfl, setFlagThenReg_keepsAllBut_V_pc s f x v⟩
  · rw [State.setFlagThenReg, reg_advance, reg_setReg_same, hv]
  · rw [State.setFlagThenReg, reg_advance, reg_setReg_ne _ _ hx.symm, reg_setReg_same, hf]
  · obtain ⟨hyx, hyvf⟩ : y ≠ x ∧ y ≠ vf := by simpa using hy
    exact reg_setFlagThenReg_ne s f v hyx hyvf

/-- With x = F the value overwrites the flag. -/
theorem writesReg_of_exec_eq_flag (hexec : exec i s = .next (s.setFlagThenReg f vf v))
    (hv : (v (s.setReg vf f)).toNat = n) : WritesReg i s vf n := by
  rw [State.setFlagThenReg, setReg_setReg_same] at hexec
  exact writesReg_of_exec_eq hexec hv

end

section
variable (x y : Nibble) (s : State)

theorem exec_addReg : exec (.addReg x y) s =
    .next (s.setFlagThenReg (carryFlag (s.reg x) (s.reg y)) x fun _ => s.reg x + s.reg y) := rfl
theorem exec_subReg : exec (.subReg x y) s =
    .next (s.setFlagThenReg (greaterFlag (s.reg x) (s.reg y)) x fun t => t.reg x - t.reg y) := rfl
theorem exec_shr : exec (.shr x y) s = .next (s.setFlagThenReg (lowBitFlag (s.reg x)) x fun t => t.reg x >>> 1) := rfl
theorem exec_subnReg : exec (.subnReg x y) s =
    .next (s.setFlagThenReg (greaterFlag (s.reg y) (s.reg x)) x fun t => t.reg y - t.reg x) := rfl
theorem exec_shl : exec (.shl x y) s = .next (s.setFlagThenReg (highBitFlag (s.reg x)) x fun t => t.reg x <<< 1) := rfl

end

/-- Settles O41: the sum is of the old registers, so that only where it goes depends on x. -/
theorem addSetsTheCarry : Obligations.AddSetsTheCarry := by
  intro x y s
  refine ⟨familyEightDecodes x y 0x4#4, fun hx => ?_, ?_⟩
  · exact writesRegAndFlag_of_exec_eq (exec_addReg x y s) hx (BitVec.toNat_add _ _) (carryFlag_toNat _ _)
  · rintro rfl
    exact writesReg_of_exec_eq_flag (exec_addReg vf y s) (BitVec.toNat_add _ _)

/-! ### Differences (R139, R141): the flag stands in VF when the registers are read -/

section
variable {s : State} {a b : Nibble} {g : Byte} {f : Nat}

theorem difference_of_ne (ha : a ≠ vf) (hb : b ≠ vf) : ((s.setReg vf g).reg a - (s.setReg vf g).reg b).toNat =
    ((s.reg a).toNat + 256 - (s.reg b).toNat) % 256 := by
  rw [reg_setReg_ne s g ha, reg_setReg_ne s g hb, byte_sub_toNat]

theorem difference_of_subtrahend_vf (ha : a ≠ vf) (hg : g.toNat = f) :
    ((s.setReg vf g).reg a - (s.setReg vf g).reg vf).toNat = ((s.reg a).toNat + 256 - f) % 256 := by
  rw [reg_setReg_ne s g ha, reg_setReg_same, byte_sub_toNat, hg]

theorem difference_of_minuend_vf (hb : b ≠ vf) (hg : g.toNat = f) :
    ((s.setReg vf g).reg vf - (s.setReg vf g).reg b).toNat = (f + 256 - (s.reg b).toNat) % 256 := by
  rw [reg_setReg_ne s g hb, reg_setReg_same, byte_sub_toNat, hg]

theorem difference_self : ((s.setReg vf g).reg vf - (s.setReg vf g).reg vf).toNat = 0 := by
  rw [BitVec.sub_self]; rfl

end

/-- Settles O42: each of x and y reads the flag where it is F, and its old register where it is not. -/
theorem subSetsTheFlagFirst : Obligations.SubSetsTheFlagFirst := by
  intro x y s
  refine ⟨familyEightDecodes x y 0x5#4, fun f hf => ?_⟩
  have hflag : (greaterFlag (s.reg x) (s.reg y)).toNat = f := (greaterFlag_toNat _ _).trans hf.symm
  have hexec := exec_subReg x y s
  refine ⟨fun hx hy => ?_, fun hx (hy : y = vf) => ?_, fun (hx : x = vf) hy => ?_,
    fun (hx : x = vf) (hy : y = vf) => ?_⟩
  · exact writesRegAndFlag_of_exec_eq hexec hx (difference_of_ne hx hy) hflag
  · subst hy; exact writesRegAndFlag_of_exec_eq hexec hx (difference_of_subtrahend_vf hx hflag) hflag
  · subst hx; exact writesReg_of_exec_eq_flag hexec (difference_of_minuend_vf hy hflag)
  · subst hx hy; exact writesReg_of_exec_eq_flag hexec difference_self

/-- Settles O43: the same four cases, with minuend and subtrahend exchanged. -/
theorem subnSetsTheFlagFirst : Obligations.SubnSetsTheFlagFirst := by
  intro x y s
  refine ⟨familyEightDecodes x y 0x7#4, fun f hf => ?_⟩
  have hflag : (greaterFlag (s.reg y) (s.reg x)).toNat = f := (greaterFlag_toNat _ _).trans hf.symm
  have hexec := exec_subnReg x y s
  refine ⟨fun hx hy => ?_, fun hx (hy : y = vf) => ?_, fun (hx : x = vf) hy => ?_,
    fun (hx : x = vf) (hy : y = vf) => ?_⟩
  · exact writesRegAndFlag_of_exec_eq hexec hx (difference_of_ne hy hx) hflag
  · subst hy; exact writesRegAndFlag_of_exec_eq hexec hx (difference_of_minuend_vf hx hflag) hflag
  · subst hx; exact writesReg_of_exec_eq_flag hexec (difference_of_subtrahend_vf hy hflag)
  · subst hx hy; exact writesReg_of_exec_eq_flag hexec difference_self

/-! ### Shifts (R140, R142) -/

theorem byte_shr_toNat (a : Byte) : (a >>> 1).toNat = a.toNat / 2 := by
  rw [BitVec.toNat_ushiftRight, Nat.shiftRight_eq_div_pow, pow_one]

theorem byte_shl_toNat (a : Byte) : (a <<< 1).toNat = 2 * a.toNat % 256 := by
  rw [BitVec.toNat_shiftLeft, Nat.shiftLeft_eq, pow_one, Nat.mul_comm]

/-- Settles O44: with x = F the register shifted holds the flag, which is 0 or 1. -/
theorem shiftsMoveTheBitOutToVF : Obligations.ShiftsMoveTheBitOutToVF := by
  intro x y s
  have hlow := lowBitFlag_toNat (s.reg x)
  have hhigh := highBitFlag_toNat (s.reg x)
  have hlt := (s.reg x).isLt
  refine ⟨familyEightDecodes x y 0x6#4, fun (hx : x ≠ vf) => ?_, fun (hx : x = vf) => ?_,
    familyEightDecodes x y 0xE#4, fun (hx : x ≠ vf) => ?_, fun (hx : x = vf) => ?_⟩
  · refine writesRegAndFlag_of_exec_eq (exec_shr x y s) hx ?_ hlow
    rw [reg_setReg_ne s _ hx, byte_shr_toNat]
  · subst hx
    refine writesReg_of_exec_eq_flag (exec_shr vf y s) ?_
    rw [reg_setReg_same, byte_shr_toNat]
    omega
  · refine writesRegAndFlag_of_exec_eq (exec_shl x y s) hx ?_ hhigh
    rw [reg_setReg_ne s _ hx, byte_shl_toNat]
  · subst hx
    refine writesReg_of_exec_eq_flag (exec_shl vf y s) ?_
    rw [reg_setReg_same, byte_shl_toNat]
    omega

end Sys2Proof.Machine
end

section
/-! Block accesses (spec/42_index_memory.md R163 to R165) and the host's operations (spec/60_exceptions.md R230, R233, R234;
spec/70_reset_and_hazards.md R260, R262). Settles O49 to O51, O57 to O60. -/

namespace Sys2Proof.Machine

/-! ### A block in memory, byte by byte (spec/20_memory.md R65) -/

/-- Byte `k` of a block that lies in memory is where it was written. -/
theorem readByte_writeBytes_at (s : State) {a k : Nat} {vs : List Byte} (hfit : a + vs.length ≤ 0x1000)
    (hk : k < vs.length) : (s.writeBytes a vs).readByte (a + k) = vs[k] := by
  rw [readByte_writeBytes s a (a + k) vs hfit, dif_pos ⟨by omega, by omega⟩]
  simp only [Nat.add_sub_cancel_left]

/-- A block at I that ends at or below 0xFFF passes the check (R62). -/
theorem not_blockOutOfBounds {s : State} {count : Nat} (h : s.I.toNat + count ≤ 0x1000) :
    ¬s.blockOutOfBounds count = true := by
  rw [blockOutOfBounds_eq_true]
  omega

/-! ### LD B, LD [I],Vx and LD Vx,[I] -/

/-- Each digit fits a byte (R163). -/
theorem digit_toNat {n : Nat} (h : n < 256) : (BitVec.ofNat 8 n).toNat = n := by
  rw [BitVec.toNat_ofNat, Nat.mod_eq_of_lt h]

/-- Settles O49: the three bytes of the block of digits, and none outside it. -/
theorem ldBStoresTheDecimalDigits : Obligations.LdBStoresTheDecimalDigits := by
  intro x h s hI
  have hlt := (s.reg x).isLt
  have hfit : s.I.toNat + (decimalDigits (s.reg x)).length ≤ 0x1000 := by rw [decimalDigits_length]; omega
  have hbyte (k : Nat) (hk : k < (decimalDigits (s.reg x)).length) :
      (completed (.ldB x h) s).readByte (s.I.toNat + k) = (decimalDigits (s.reg x))[k] :=
    readByte_writeBytes_at s hfit hk
  refine ⟨_, exec_of_ownCheck_none (if_neg (not_blockOutOfBounds hfit)), ?_, ?_, ?_, fun a ha => ?_, rfl,
    completed_keepsAllBut (.ldB x h) s⟩
  · exact (congrArg BitVec.toNat (hbyte 0 (by simp))).trans (digit_toNat (by omega))
  · exact (congrArg BitVec.toNat (hbyte 1 (by simp))).trans (digit_toNat (by omega))
  · exact (congrArg BitVec.toNat (hbyte 2 (by simp))).trans (digit_toNat (by omega))
  · exact readByte_writeBytes_outside s s.I.toNat a _ (by rw [decimalDigits_length]; omega)

/-- Settles O50: byte `k` of the block is V[k], and none outside it is written. -/
theorem storeRegsWritesTheBlock : Obligations.StoreRegsWritesTheBlock := by
  intro x s hI
  have hfit : s.I.toNat + (s.regBlock x).length ≤ 0x1000 := by rw [regBlock_length]; omega
  refine ⟨_, exec_of_ownCheck_none (i := .storeRegs x) (if_neg (not_blockOutOfBounds (by omega))), fun k hk => ?_,
    fun a ha => ?_, rfl, completed_keepsAllBut (.storeRegs x) s⟩
  · have hlt : k.toNat < (s.regBlock x).length := by rw [regBlock_length]; omega
    refine (readByte_writeBytes_at s hfit hlt).trans ?_
    rw [regBlock_getElem, BitVec.ofNat_toNat, BitVec.setWidth_eq]
  · exact readByte_writeBytes_outside s s.I.toNat a _ (by rw [regBlock_length]; omega)

/-- Settles O51: the registers up to Vx come from the block, the others stay. -/
theorem loadRegsReadsTheBlock : Obligations.LoadRegsReadsTheBlock := by
  intro x s hI
  refine ⟨_, exec_of_ownCheck_none (i := .loadRegs x) (if_neg (not_blockOutOfBounds (by omega))), fun k hk => ?_,
    fun k hk => ?_, completed_pc (i := .loadRegs x) rfl, completed_keepsAllBut (.loadRegs x) s⟩
  · rw [completed, reg_advance, reg_loadRegBlock, if_pos hk, State.dataAddr]
  · rw [completed, reg_advance, reg_loadRegBlock, if_neg (by omega)]

/-! ### Timers (R230) -/

theorem tickTimers_keepsAllBut_DT_ST (s : State) : KeepsAllBut [.DT, .ST] s (tickTimers s).1 := by
  intro p hp
  cases p with
  | DT | ST => exact absurd hp (by decide)
  | V | mem => exact fun _ => rfl
  | _ => rfl

/-- Settles O58, by induction on the number of ticks, from any state. -/
theorem ticksCountDownToZero : Obligations.TicksCountDownToZero := by
  rintro n s t rfl
  induction n generalizing s with
  | zero => exact ⟨rfl, rfl, fun p _ => Part.kept_refl s p⟩
  | succ n ih =>
    obtain ⟨hDT, hST, hkept⟩ := ih (tickTimers s).1
    have hDT1 : (tickTimers s).1.DT.toNat = s.DT.toNat - 1 := tickTimer_toNat s.DT
    have hST1 : (tickTimers s).1.ST.toNat = s.ST.toNat - 1 := tickTimer_toNat s.ST
    rw [List.replicate_succ, runOps_cons]
    exact ⟨hDT.trans (by omega), hST.trans (by omega),
      ((tickTimers_keepsAllBut_DT_ST s).trans hkept).mono (by decide)⟩

/-! ### Key events (R233, R234) -/

section
variable {k : Nat} {s : State}

theorem deliverKeyEvent_badKey (hk : k > 0xF) (pressed : Bool) :
    deliverKeyEvent k pressed s = (s, .rejectedBadKey) := if_pos hk

theorem deliverKeyEvent_press (hk : k ≤ 0xF) :
    deliverKeyEvent k true s = (resolveWait k { s with keys := pressKey s.keys k }, .ok) := if_neg (by omega)

theorem deliverKeyEvent_release (hk : k ≤ 0xF) :
    deliverKeyEvent k false s = ({ s with keys := releaseKey s.keys k }, .ok) := if_neg (by omega)

theorem resolveWait_of_wait {r : Nibble} (h : s.halt = .waitKey r) :
    resolveWait k s = { s.setReg r (BitVec.ofNat 8 k) with halt := .notHalted } := by simp [resolveWait, h]

theorem resolveWait_of_no_wait (h : s.halt = .notHalted) : resolveWait k s = s := by simp [resolveWait, h]

variable (k s)

theorem setKeys_keepsAllBut_keys (ks : BitVec 16) : KeepsAllBut [.keys] s { s with keys := ks } := by
  intro p hp
  cases p with
  | keys => exact absurd hp (by decide)
  | V | mem => exact fun _ => rfl
  | _ => rfl

theorem resolveWait_keepsAllBut_V_halt : KeepsAllBut [.V, .halt] s (resolveWait k s) := by
  cases h : s.halt with
  | notHalted => rw [resolveWait_of_no_wait h]; exact fun p _ => Part.kept_refl s p
  | waitKey r =>
    rw [resolveWait_of_wait h]
    exact (setReg_keepsAllBut_V s r _).trans (setHalt_keepsAllBut_halt _ _)

/-- No key-wait is in progress after a press. -/
theorem resolveWait_halt : (resolveWait k s).halt = .notHalted := by
  cases h : s.halt with
  | notHalted => rw [resolveWait_of_no_wait h, h]
  | waitKey r => rw [resolveWait_of_wait h]

end

/-- Settles O57: a press is the key's bit and then the end of the wait, if there is one; a release is the bit alone. -/
theorem keyEventsUpdateKeysAndResolveTheWait : Obligations.KeyEventsUpdateKeysAndResolveTheWait := by
  intro k s
  refine ⟨fun hk => deliverKeyEvent_badKey hk, fun hk => ?_, fun hk => ?_⟩
  · let p : State := { s with keys := pressKey s.keys k }
    have hkept : KeepsAllBut [.V, .halt] p (resolveWait k p) := resolveWait_keepsAllBut_V_halt k p
    refine ⟨_, deliverKeyEvent_press hk, fun j => ?_, resolveWait_halt k p, fun r hr => ⟨?_, fun x hx => ?_⟩, fun hn => ?_,
      ((setKeys_keepsAllBut_keys s _).trans hkept).mono (by decide)⟩
    · have hkeys : (resolveWait k p).keys = pressKey s.keys k := hkept .keys (by decide)
      rw [hkeys, getLsbD_pressKey s.keys k j hk]
    · rw [resolveWait_of_wait (s := p) hr]
      exact (congrArg BitVec.toNat (reg_setReg_same p r _)).trans (digit_toNat (by omega))
    · rw [resolveWait_of_wait (s := p) hr]
      exact reg_setReg_ne p _ (List.ne_of_not_mem_cons hx)
    · rw [resolveWait_of_no_wait (s := p) hn]
  · exact ⟨_, deliverKeyEvent_release hk, fun j => getLsbD_releaseKey s.keys k j hk, setKeys_keepsAllBut_keys s _⟩

/-! ### Reset (R260) and loading (R262) -/

/-- At reset every byte of memory is its reset byte. -/
theorem readByte_hostReset (s : State) (a : Nat) : (hostReset s).1.readByte a = Memory.baseByte s.font a := rfl

/-- Row `r` of glyph `d` stands at `5 d + r` (spec/20_memory.md R55). -/
theorem baseByte_glyph (font : Font) (d : Fin 16) (r : Fin 5) :
    Memory.baseByte font (5 * d.val + r.val) = font[d][r] := by
  have hdiv : (5 * d.val + r.val) / 5 = d.val := by omega
  have hmod : (5 * d.val + r.val) % 5 = r.val := by omega
  rw [Memory.baseByte, dif_pos (by omega)]
  simp [hdiv, hmod]

/-- Above the font every reset byte is 0. -/
theorem baseByte_above_font (font : Font) {a : Nat} (h : 0x050 ≤ a) : Memory.baseByte font a = 0 :=
  dif_neg (by omega)

/-- Settles O59, field by field. -/
theorem resetReplacesTheState : Obligations.ResetReplacesTheState := by
  rintro s t rfl
  refine ⟨fun x => ?_, rfl, rfl, fun j => ?_, rfl, rfl, rfl, fun r c _ _ => pixelAt_blankDisplay r c, rfl, rfl, rfl, rfl,
    fun d r => (readByte_hostReset s _).trans (baseByte_glyph s.font d r),
    fun a ha _ => (readByte_hostReset s a).trans (baseByte_above_font s.font ha)⟩
  · exact Vector.getElem_replicate x.isLt
  · exact Vector.getElem_replicate j.isLt

/-- Settles O60: an image that fits lies in memory below 0x1000, and is one block write. -/
theorem loadProgramWritesTheImage : Obligations.LoadProgramWritesTheImage := by
  intro bytes s
  refine ⟨fun hlong => if_pos hlong, fun hfit => ⟨_, if_neg (by omega), fun k hk => ?_, fun a ha => ?_, ?_⟩⟩
  · exact readByte_writeBytes_at s (by omega) hk
  · exact readByte_writeBytes_outside s 0x200 a bytes ha
  · exact writeBytes_keepsAllBut_mem s 0x200 bytes

end Sys2Proof.Machine
end

section
/-! The sprite blit (spec/43_display.md R182 to R186) as a run over the sprite's bits: no two bits of a sprite of at most 32
rows fall on one pixel, so a pixel is inverted if a 1 bit falls on it, and a set pixel so inverted is a collision. Settles
O53 and O54. -/

namespace Sys2Proof.Machine

/-! ### The blit as a run over sprite bits -/

/-- One bit of a sprite: the row and column it falls on, before the wrap, and its value. -/
structure SpriteBit where
  row : Nat
  col : Nat
  bit : Bool

/-- The bit is 1 and the pixel at row `r`, column `c` is the one it falls on, rows mod 32 and columns mod 64 (R184). -/
def SpriteBit.covers (b : SpriteBit) (r c : Nat) : Bool :=
  b.bit && decide (r % 32 = b.row % 32 ∧ c % 64 = b.col % 64)

/-- Blit a list of sprite bits, in order. -/
def blitBits (bits : List SpriteBit) (cv : Canvas) : Canvas :=
  bits.foldl (fun acc b => blitBit b.row b.col b.bit acc) cv

/-- The bits of the sprite with rows `bs`, from row `r` down, at column `x0` (R183). -/
def spriteBits (x0 : Nat) : Nat → List Byte → List SpriteBit
  | _, [] => []
  | r, b :: bs => (List.range 8).map (fun k => ⟨r, x0 + k, b.getLsbD (7 - k)⟩) ++ spriteBits x0 (r + 1) bs

theorem blitRows_eq_blitBits (x0 r : Nat) (bs : List Byte) (cv : Canvas) :
    blitRows x0 r bs cv = blitBits (spriteBits x0 r bs) cv := by
  induction bs generalizing r cv with
  | nil => rfl
  | cons b bs ih => rw [blitRows, ih, spriteBits, blitBits, blitBits, List.foldl_append, List.foldl_map, blitRow]

/-- Bit `7 - k` of row `j` falls on row `r + j`, column `x0 + k`. -/
theorem mem_spriteBits {x0 r : Nat} {bs : List Byte} {b : SpriteBit} :
    b ∈ spriteBits x0 r bs ↔
      ∃ j k, ∃ hj : j < bs.length, k < 8 ∧ b = ⟨r + j, x0 + k, bs[j].getLsbD (7 - k)⟩ := by
  induction bs generalizing r with
  | nil => simp [spriteBits]
  | cons a bs ih =>
    rw [spriteBits, List.mem_append, ih]
    simp only [List.mem_map, List.mem_range]
    constructor
    · rintro (⟨k, hk, rfl⟩ | ⟨j, k, hj, hk, rfl⟩)
      · exact ⟨0, k, by simp, hk, rfl⟩
      · exact ⟨j + 1, k, by simpa using hj, hk, by simp [Nat.add_assoc, Nat.add_comm 1 j]⟩
    · rintro ⟨_ | j, k, hj, hk, rfl⟩
      · exact .inl ⟨k, hk, rfl⟩
      · exact .inr ⟨j, k, by simpa using hj, hk, by simp [Nat.add_assoc, Nat.add_comm 1 j]⟩

/-- Two bits fall on different pixels. -/
def SpriteBit.Apart (a b : SpriteBit) : Prop := ¬(a.row % 32 = b.row % 32 ∧ a.col % 64 = b.col % 64)

/-- A sprite of at most 32 rows covers no pixel twice, though it wraps. -/
theorem spriteBits_apart (x0 r : Nat) (bs : List Byte) (h : bs.length ≤ 32) :
    (spriteBits x0 r bs).Pairwise SpriteBit.Apart := by
  induction bs generalizing r with
  | nil => exact .nil
  | cons b bs ih =>
    rw [List.length_cons] at h
    rw [spriteBits, List.pairwise_append]
    refine ⟨?_, ih (r + 1) (by omega), ?_⟩
    · rw [List.pairwise_map]
      refine List.pairwise_lt_range.imp_of_mem fun hi hj hlt => ?_
      rw [List.mem_range] at hi hj
      simp only [SpriteBit.Apart]
      omega
    · intro a ha c hc
      obtain ⟨k, -, rfl⟩ := List.mem_map.1 ha
      obtain ⟨j, k', hj, -, rfl⟩ := mem_spriteBits.1 hc
      simp only [SpriteBit.Apart]
      omega

/-! ### What a run of bits does to the pixels -/

section
variable {bits : List SpriteBit} (hbits : bits.Pairwise SpriteBit.Apart)
include hbits

/-- Bits that fall apart invert each pixel that one of them covers, and keep the others. -/
theorem pixelAt_blitBits (cv : Canvas) (r c : Nat) :
    pixelAt (blitBits bits cv).disp r c = (pixelAt cv.disp r c ^^ bits.any (·.covers r c)) := by
  induction bits generalizing cv with
  | nil => simp [blitBits]
  | cons b bs ih =>
    obtain ⟨hb, hbs⟩ := List.pairwise_cons.1 hbits
    have hstep : pixelAt (blitBit b.row b.col b.bit cv).disp r c = (pixelAt cv.disp r c ^^ b.covers r c) :=
      (blitBit_spec b.row b.col b.bit cv r c).1
    have hrest : b.covers r c = true → bs.any (·.covers r c) = false := by
      intro hbc
      rw [List.any_eq_false]
      intro a ha hac
      simp only [SpriteBit.covers, Bool.and_eq_true, decide_eq_true_eq] at hbc hac
      exact hb a ha ⟨hbc.2.1.symm.trans hac.2.1, hbc.2.2.symm.trans hac.2.2⟩
    rw [blitBits, List.foldl_cons, ← blitBits, ih hbs, hstep, List.any_cons, Bool.xor_assoc]
    cases hbc : b.covers r c
    · rw [Bool.false_xor, Bool.false_or]
    · rw [hrest hbc]; rfl

/-- A collision is a 1 bit on a pixel that was set before the run. -/
theorem collided_blitBits (cv : Canvas) :
    (blitBits bits cv).collided = (cv.collided || bits.any fun b => b.bit && pixelAt cv.disp b.row b.col) := by
  induction bits generalizing cv with
  | nil => simp [blitBits]
  | cons b bs ih =>
    obtain ⟨hb, hbs⟩ := List.pairwise_cons.1 hbits
    have hstep := (blitBit_spec b.row b.col b.bit cv b.row b.col).2
    have hsame : (bs.any fun a => a.bit && pixelAt (blitBit b.row b.col b.bit cv).disp a.row a.col) =
        bs.any fun a => a.bit && pixelAt cv.disp a.row a.col := by
      rw [Bool.eq_iff_iff, List.any_eq_true, List.any_eq_true]
      refine exists_congr fun a => and_congr_right fun ha => ?_
      have hapart : ¬(a.row % 32 = b.row % 32 ∧ a.col % 64 = b.col % 64) := fun h => hb a ha ⟨h.1.symm, h.2.symm⟩
      rw [(blitBit_spec b.row b.col b.bit cv a.row a.col).1, decide_eq_false hapart, Bool.and_false, Bool.xor_false]
    rw [blitBits, List.foldl_cons, ← blitBits, ih hbs, hstep, hsame, List.any_cons, Bool.or_assoc]

end

/-! ### DRW (R182) -/

section
variable (x y n : Nibble) (s : State)

/-- The bits that DRW blits: the sprite at I, from row V[y] down, at column V[x]. -/
def State.spriteBits (s : State) (x y n : Nibble) : List SpriteBit :=
  Machine.spriteBits (s.reg x).toNat (s.reg y).toNat (s.readBlock n.toNat)

theorem drawn_eq_blitBits : s.drawn x y n = blitBits (s.spriteBits x y n) ⟨s.disp, false⟩ :=
  blitRows_eq_blitBits _ _ _ _

/-- A sprite of DRW has at most 15 rows. -/
theorem State.spriteBits_apart : (s.spriteBits x y n).Pairwise SpriteBit.Apart :=
  Machine.spriteBits_apart _ _ _ (by rw [readBlock_length]; omega)

/-- `SpriteCovers` says that one of these bits covers the pixel. -/
theorem any_covers_iff_spriteCovers {r c : Nat} (hr : r < 32) (hc : c < 64) :
    (s.spriteBits x y n).any (·.covers r c) = true ↔
      SpriteCovers s (s.reg x).toNat (s.reg y).toNat n.toNat r c := by
  rw [List.any_eq_true]
  constructor
  · rintro ⟨b, hb, hcov⟩
    obtain ⟨j, k, hj, hk, rfl⟩ := mem_spriteBits.1 hb
    simp only [SpriteBit.covers, Bool.and_eq_true, decide_eq_true_eq, readBlock_getElem] at hcov
    rw [readBlock_length] at hj
    exact ⟨j, k, hj, hk, by omega, by omega, hcov.1⟩
  · rintro ⟨j, k, hj, hk, hrow, hcol, hbit⟩
    refine ⟨_, mem_spriteBits.2 ⟨j, k, by rwa [readBlock_length], hk, rfl⟩, ?_⟩
    simp only [SpriteBit.covers, Bool.and_eq_true, decide_eq_true_eq, readBlock_getElem]
    exact ⟨hbit, by omega, by omega⟩

/-- A pixel after DRW. -/
theorem pixelAt_drawn (r c : Nat) :
    pixelAt (s.drawn x y n).disp r c = (pixelAt s.disp r c ^^ (s.spriteBits x y n).any (·.covers r c)) := by
  rw [drawn_eq_blitBits, pixelAt_blitBits (s.spriteBits_apart x y n)]

/-- DRW reports a collision exactly if some pixel went from set to unset (R185). -/
theorem collided_drawn_iff : (s.drawn x y n).collided = true ↔
    ∃ r c, r < 32 ∧ c < 64 ∧ pixelAt s.disp r c = true ∧ pixelAt (s.drawn x y n).disp r c = false := by
  rw [drawn_eq_blitBits, collided_blitBits (s.spriteBits_apart x y n), ← drawn_eq_blitBits, Bool.false_or,
    List.any_eq_true]
  constructor
  · rintro ⟨b, hb, hset⟩
    obtain ⟨hbit, hpix⟩ := (Bool.and_eq_true _ _).mp hset
    have hcov : (s.spriteBits x y n).any (·.covers (b.row % 32) (b.col % 64)) = true :=
      List.any_eq_true.2 ⟨b, hb, by simp [SpriteBit.covers, hbit]⟩
    refine ⟨b.row % 32, b.col % 64, by omega, by omega, (pixelAt_mod _ _ _).trans hpix, ?_⟩
    rw [pixelAt_drawn, hcov, pixelAt_mod, hpix]
    rfl
  · rintro ⟨r, c, -, -, hset, hunset⟩
    rw [pixelAt_drawn, hset, Bool.true_xor, Bool.not_eq_false'] at hunset
    obtain ⟨b, hb, hcov⟩ := List.any_eq_true.1 hunset
    simp only [SpriteBit.covers, Bool.and_eq_true, decide_eq_true_eq] at hcov
    refine ⟨b, hb, ?_⟩
    rw [hcov.1, Bool.true_and, ← pixelAt_mod, ← hcov.2.1, ← hcov.2.2, pixelAt_mod, hset]

/-- A DRW whose sprite lies in memory completes. -/
theorem exec_drw (h : n.toNat = 0 ∨ s.I.toNat + n.toNat - 1 ≤ 0xFFF) :
    exec (.drw x y n) s = .next (completed (.drw x y n) s) := by
  refine exec_of_ownCheck_none (if_neg ?_)
  rw [blockOutOfBounds_eq_true]
  omega

end

/-- Settles O53: pixels by the bits that cover them, the flag by the collision, and the frame of a completed DRW. -/
theorem drwInvertsTheSpritesPixels : Obligations.DrwInvertsTheSpritesPixels := by
  intro x y n s h
  have hflag : (completed (.drw x y n) s).reg vf = flagOf (s.drawn x y n).collided := reg_setReg_same _ vf _
  refine ⟨_, exec_drw x y n s h, fun r c hr hc => ⟨fun hcov => ?_, fun hcov => ?_⟩, fun hcoll => ?_, fun hcoll => ?_,
    fun r hr => reg_completed (by simpa [writesRegister, vf] using hr), rfl, completed_keepsAllBut (.drw x y n) s⟩
  · refine (pixelAt_drawn x y n s r c).trans ?_
    rw [(any_covers_iff_spriteCovers x y n s hr hc).2 hcov, Bool.xor_true]
  · refine (pixelAt_drawn x y n s r c).trans ?_
    rw [Bool.eq_false_iff.2 (mt (any_covers_iff_spriteCovers x y n s hr hc).1 hcov), Bool.xor_false]
  · exact hflag.trans (congrArg flagOf ((collided_drawn_iff x y n s).2 hcoll))
  · exact hflag.trans (congrArg flagOf (Bool.eq_false_iff.2 (mt (collided_drawn_iff x y n s).1 hcoll)))

/-- The bits that DRW blits are those of V[x], V[y], I and memory. -/
theorem spriteBits_congr {x y n : Nibble} {s u : State} (hx : u.reg x = s.reg x) (hy : u.reg y = s.reg y)
    (hI : u.I = s.I) (hmem : ∀ a, u.readByte a = s.readByte a) : u.spriteBits x y n = s.spriteBits x y n := by
  have hblock : u.readBlock n.toNat = s.readBlock n.toNat := by
    simp only [State.readBlock, State.dataAddr, hI, hmem]
  rw [State.spriteBits, hx, hy, hblock, State.spriteBits]

/-- Settles O54: a pixel is inverted by both draws or by neither. -/
theorem drawingTwiceRestoresTheDisplay : Obligations.DrawingTwiceRestoresTheDisplay := by
  intro x y n s t u w _ ht htf hdisp hx hy hI hmem hw
  obtain ⟨hcheck, rfl⟩ := completed_of_no_fault ht htf
  have hcheck' : ownCheck (.drw x y n) u = none := by
    simpa [ownCheck, State.blockOutOfBounds, hI] using hcheck
  obtain rfl := next_inj.1 ((exec_of_ownCheck_none hcheck').symm.trans hw)
  refine display_ext fun r c _ _ => ?_
  have hu : u.disp = (s.drawn x y n).disp := hdisp
  refine (pixelAt_drawn x y n u r c).trans ?_
  rw [hu, pixelAt_drawn, spriteBits_congr hx hy hI hmem, Bool.xor_assoc, Bool.xor_self, Bool.xor_false]

end Sys2Proof.Machine
end
